-- ==== Sys2Proof/Word.lean ====
section
/-! DEFINITION. The value types of 00_scope.md R13: bytes, byte lists, four-byte lists, the two ports, the two key types. -/

namespace Sys2Proof

/-- A byte, 8 bits, bit 7 the most significant (R10). -/
abbrev Byte := BitVec 8

/-- A finite list of bytes, element 0 first (R13); a frame is one of these, delivered whole (R61). -/
abbrev Bytes := List Byte

/-- The 9-bit divisor of a BitCRC instance, `1` followed by the key (R86). -/
abbrev Divisor := BitVec 9

/-- A list of exactly four bytes: a key, a card ID, manufacturing data (R6, R42). -/
structure Quad where
  b0 : Byte
  b1 : Byte
  b2 : Byte
  b3 : Byte
  deriving DecidableEq, Repr

/-- The four bytes in index order (R44). -/
def Quad.toList (q : Quad) : Bytes := [q.b0, q.b1, q.b2, q.b3]

/-- Four zero bytes. -/
def Quad.zero : Quad := ⟨0, 0, 0, 0⟩

/-- The port a frame arrives on, which fixes its privilege (R61, R164). -/
inductive Port where
  /-- EXT, the external, normal-protocol port. -/
  | ext
  /-- PRV, the privileged port. -/
  | prv
  deriving DecidableEq, Repr

/-- `keyType`: Key A (`false`) or Key B (`true`) (R68). -/
inductive KeyType where
  | a
  | b
  deriving DecidableEq, Repr

/-- The operation an authorisation is for: `op` of R49, read 0, write 1. -/
inductive AccessOp where
  | read
  | write
  deriving DecidableEq, Repr

end Sys2Proof
end

