-- ==== Sys2Proof/Syntax.lean ====
section
/-! DEFINITION. The command set: one constructor per row of spec/opcode_table.json (30_encoding.md R66), with the operands of
its format (R65). -/

namespace Sys2Proof

/-- A command with its operands, the port apart (the port is no part of the frame, R61). -/
inductive Instr where
  /-- CRC_INIT, format FK (R94). -/
  | crcInit (k : Byte)
  /-- CRC_GETDIV, format F0 (R95). -/
  | crcGetdiv
  /-- CRC_CALC, format FD: every byte after the opcode is data (R64, R96). -/
  | crcCalc (data : Bytes)
  /-- CARD_INIT, format FI (R104); the bits of `flags` are R70's. -/
  | cardInit (flags crcKey : Byte) (id mfg s0ka s0kb s1ka s1kb : Quad) (ac0 ac1 : Byte)
  /-- CARD_CHECK, format F0 (R116). -/
  | cardCheck
  /-- CARD_READ, format FA (R120). -/
  | cardRead (ss bb : Byte) (kt : KeyType) (key : Quad)
  /-- CARD_READI, format FA (R124). -/
  | cardReadi (ss bb : Byte) (kt : KeyType) (key : Quad)
  /-- CARD_WRITE, format FW (R125). -/
  | cardWrite (ss bb oo : Byte) (kt : KeyType) (key : Quad) (dd : Byte)
  /-- CARD_WRITEO, format FO (R126). -/
  | cardWriteo (ss bb oo dd : Byte)
  /-- VAL_INIT, format FV (R140); bit 0 of `vflags` is `VAL_EN` (R71). -/
  | valInit (vflags vk : Byte) (vmfg : Quad)
  /-- VAL_CHECK, format F0 (R143). -/
  | valCheck
  deriving DecidableEq, Repr

end Sys2Proof
end

