-- ==== Sys2Proof/WellFormed.lean ====
section
/-! DEFINITION. Which terms of `Instr` an encoding stands for: the reserved bits are 0 (30_encoding.md R70, R71, R73). Operand
values outside the storage shape are legal encodings (R67, R73) and are well-formed. -/

namespace Sys2Proof

/-- The reserved bits of FLAGS (bit 0, R70) and of VFLAGS (bits 7 to 1, R71) are 0. -/
def Instr.wf : Instr → Bool
  | .cardInit flags _ _ _ _ _ _ _ _ _ => !flags.getLsbD 0
  | .valInit vflags _ _ => vflags.extractLsb' 1 7 == 0
  | .crcInit _ => true
  | .crcGetdiv => true
  | .crcCalc _ => true
  | .cardCheck => true
  | .cardRead _ _ _ _ => true
  | .cardReadi _ _ _ _ => true
  | .cardWrite _ _ _ _ _ _ => true
  | .cardWriteo _ _ _ _ => true
  | .valCheck => true

end Sys2Proof
end

