-- ==== Sys2Proof/Decode.lean ====
section
/-! DEFINITION. The decoder of command frames, total on any list of bytes, and the encoder (30_encoding.md R64 to R74); and the
reading of an opcode-table word as a frame. -/

namespace Sys2Proof

/-- The eleven assigned opcodes (R66). -/
inductive Opcode where
  | crcInit | crcGetdiv | crcCalc | cardInit | cardCheck | cardRead | cardReadi | cardWrite | cardWriteo | valInit | valCheck
  deriving DecidableEq, Repr

/-- The opcode byte of a command (R66). -/
def Opcode.toByte : Opcode → Byte
  | .crcInit => 0x10
  | .crcGetdiv => 0x11
  | .crcCalc => 0x12
  | .cardInit => 0x20
  | .cardCheck => 0x21
  | .cardRead => 0x30
  | .cardReadi => 0x31
  | .cardWrite => 0x40
  | .cardWriteo => 0x41
  | .valInit => 0x50
  | .valCheck => 0x51

/-- Every assigned opcode, in the table's order. -/
def Opcode.all : List Opcode :=
  [.crcInit, .crcGetdiv, .crcCalc, .cardInit, .cardCheck, .cardRead, .cardReadi, .cardWrite, .cardWriteo, .valInit, .valCheck]

/-- The command a first byte selects, `none` for the reserved ones (R64, R72). -/
def Opcode.ofByte (b : Byte) : Option Opcode :=
  Opcode.all.find? (fun o => o.toByte == b)

/-- The commands the EXT port may issue: CARD_READ and CARD_WRITE (R66, R155, R165). -/
def Opcode.external : Opcode → Bool
  | .cardRead => true
  | .cardWrite => true
  | _ => false

/-- The frame length of a format, `none` for CRC_CALC's `1 + n` (R64, R65). -/
def Opcode.frameLength : Opcode → Option Nat
  | .crcInit => some 2
  | .crcGetdiv => some 1
  | .crcCalc => none
  | .cardInit => some 29
  | .cardCheck => some 1
  | .cardRead => some 8
  | .cardReadi => some 8
  | .cardWrite => some 10
  | .cardWriteo => some 5
  | .valInit => some 7
  | .valCheck => some 1

/-- Why a frame is no command: the stages (1), (2) and (4) of the decode order R74. Each is safe: the block answers a
hard failure and changes nothing (R72, R73). -/
inductive Illegal where
  /-- The empty frame (R73, R74 stage 1). -/
  | emptyFrame
  /-- The first byte is a reserved opcode (R72, R74 stage 2). -/
  | reservedOpcode (first : Byte)
  /-- An assigned opcode with a wrong length, a reserved bit set or a bad `KT` (R73, R74 stage 4). -/
  | malformed (op : Opcode)
  deriving DecidableEq, Repr

/-- The `KT` byte: 0x00 Key A, 0x01 Key B, any other value malformed (R68). -/
def decodeKeyType (kt : Byte) : Option KeyType :=
  if kt = 0 then some .a else if kt = 1 then some .b else none

/-- `KT` of a key type (R68). -/
def encodeKeyType : KeyType → Byte
  | .a => 0
  | .b => 1

/-- Format FI after the opcode (R65); FLAGS bit 0 must be 0 (R70). -/
def decodeFI : Bytes → Option Instr
  | [flags, crcKey, i0, i1, i2, i3, m0, m1, m2, m3, a0, a1, a2, a3, b0, b1, b2, b3,
      c0, c1, c2, c3, d0, d1, d2, d3, ac0, ac1] =>
    if flags.getLsbD 0 then none
    else some (.cardInit flags crcKey ⟨i0, i1, i2, i3⟩ ⟨m0, m1, m2, m3⟩ ⟨a0, a1, a2, a3⟩ ⟨b0, b1, b2, b3⟩
      ⟨c0, c1, c2, c3⟩ ⟨d0, d1, d2, d3⟩ ac0 ac1)
  | _ => none

/-- Format FA after the opcode (R65), shared by the two reads. -/
def decodeFA (make : Byte → Byte → KeyType → Quad → Instr) : Bytes → Option Instr
  | [ss, bb, kt, k0, k1, k2, k3] => (decodeKeyType kt).map (fun t => make ss bb t ⟨k0, k1, k2, k3⟩)
  | _ => none

/-- Format FW after the opcode (R65). -/
def decodeFW : Bytes → Option Instr
  | [ss, bb, oo, kt, k0, k1, k2, k3, dd] =>
    (decodeKeyType kt).map (fun t => .cardWrite ss bb oo t ⟨k0, k1, k2, k3⟩ dd)
  | _ => none

/-- Format FO after the opcode (R65). -/
def decodeFO : Bytes → Option Instr
  | [ss, bb, oo, dd] => some (.cardWriteo ss bb oo dd)
  | _ => none

/-- Format FV after the opcode (R65); VFLAGS bits 7 to 1 must be 0 (R71). -/
def decodeFV : Bytes → Option Instr
  | [vflags, vk, m0, m1, m2, m3] =>
    if vflags.extractLsb' 1 7 = 0 then some (.valInit vflags vk ⟨m0, m1, m2, m3⟩) else none
  | _ => none

/-- Format FK after the opcode (R65). -/
def decodeFK : Bytes → Option Instr
  | [k] => some (.crcInit k)
  | _ => none

/-- Format F0 after the opcode: nothing (R65). -/
def decodeF0 (i : Instr) : Bytes → Option Instr
  | [] => some i
  | _ => none

/-- The operands of an assigned opcode, `none` when the frame's shape is not its format's (R65, R73). -/
def decodeOperands : Opcode → Bytes → Option Instr
  | .crcInit, rest => decodeFK rest
  | .crcGetdiv, rest => decodeF0 .crcGetdiv rest
  | .crcCalc, rest => some (.crcCalc rest)
  | .cardInit, rest => decodeFI rest
  | .cardCheck, rest => decodeF0 .cardCheck rest
  | .cardRead, rest => decodeFA .cardRead rest
  | .cardReadi, rest => decodeFA .cardReadi rest
  | .cardWrite, rest => decodeFW rest
  | .cardWriteo, rest => decodeFO rest
  | .valInit, rest => decodeFV rest
  | .valCheck, rest => decodeF0 .valCheck rest

/-- The command a frame stands for, or why it is none (R64, R74 stages 1, 2 and 4; the port check, stage 3, is made by
`State.rejectFrame` for a malformed frame and by each command's meaning for a well-formed one). -/
def decode : Bytes → Except Illegal Instr
  | [] => .error .emptyFrame
  | first :: rest =>
    match Opcode.ofByte first with
    | none => .error (.reservedOpcode first)
    | some op =>
      match decodeOperands op rest with
      | none => .error (.malformed op)
      | some i => .ok i

/-- The opcode of a command (R66). -/
def Instr.opcode : Instr → Opcode
  | .crcInit _ => .crcInit
  | .crcGetdiv => .crcGetdiv
  | .crcCalc _ => .crcCalc
  | .cardInit _ _ _ _ _ _ _ _ _ _ => .cardInit
  | .cardCheck => .cardCheck
  | .cardRead _ _ _ _ => .cardRead
  | .cardReadi _ _ _ _ => .cardReadi
  | .cardWrite _ _ _ _ _ _ => .cardWrite
  | .cardWriteo _ _ _ _ => .cardWriteo
  | .valInit _ _ _ => .valInit
  | .valCheck => .valCheck

/-- The bytes after the opcode, in the order of the format (R65). -/
def Instr.operandBytes : Instr → Bytes
  | .crcInit k => [k]
  | .crcGetdiv => []
  | .crcCalc data => data
  | .cardInit flags crcKey id mfg s0ka s0kb s1ka s1kb ac0 ac1 =>
    [flags, crcKey] ++ id.toList ++ mfg.toList ++ s0ka.toList ++ s0kb.toList ++ s1ka.toList ++ s1kb.toList ++ [ac0, ac1]
  | .cardCheck => []
  | .cardRead ss bb kt key => [ss, bb, encodeKeyType kt] ++ key.toList
  | .cardReadi ss bb kt key => [ss, bb, encodeKeyType kt] ++ key.toList
  | .cardWrite ss bb oo kt key dd => [ss, bb, oo, encodeKeyType kt] ++ key.toList ++ [dd]
  | .cardWriteo ss bb oo dd => [ss, bb, oo, dd]
  | .valInit vflags vk vmfg => [vflags, vk] ++ vmfg.toList
  | .valCheck => []

/-- The frame of a command: the opcode byte, then the operands (R64, R65). -/
def encode (i : Instr) : Bytes := i.opcode.toByte :: i.operandBytes

/-- Byte `i` of a word whose byte 0 is its least significant (the numbering of spec/opcode_table.json). -/
def wordByte (w i : Nat) : Byte := BitVec.ofNat 8 (w / 2 ^ (8 * i))

/-- The frame that stands for an opcode-table word: the first `nbits` bits of `w`, and zero bytes up to the length of
the format its first byte selects. DESIGN CHOICE (log 13). -/
def frameOfWord (nbits w : Nat) : Bytes :=
  let kept := w % 2 ^ nbits
  let given := (nbits + 7) / 8
  let format := ((Opcode.ofByte (wordByte kept 0)).bind Opcode.frameLength).getD 1
  (List.range (max given format)).map (wordByte kept)

/-- What the decoder reads from an opcode-table word. -/
def decodeTableWord (nbits w : Nat) : Option Instr :=
  (decode (frameOfWord nbits w)).toOption

end Sys2Proof
end

