-- ==== Sys2Proof/Config.lean ====
section
/-! DEFINITION. What an implementation fixes and the spec leaves open: the three OPEN parameters of 00_scope.md R7, and the
free values, which have no body so that nothing can be proved of them. -/

namespace Sys2Proof

/-- The OPEN parameters of R7 (D7, D12, D19). DESIGN CHOICE (log 6): they stand in State, where no step writes them, so
that a statement about every state holds for every value of them. Unsafe only for a statement about the defaults. -/
structure Config.Params where
  /-- `TRAILER_NEEDS_DATA_FLAG`: whether a trailer access needs the data flag too (R50, C10). -/
  trailerNeedsDataFlag : Bool
  /-- `PAYLOAD_INIT`: the 40 payload bytes CARD_INIT leaves, as (flat address, byte) pairs; an address not listed is 0x00 (R106). -/
  payloadInit : List Host.Cell
  /-- `MAX_CRC_LEN`: the largest number of data bytes of a CRC_CALC frame, `none` for unbounded (R7, R96). -/
  maxCrcLen : Option Nat
  deriving DecidableEq, Repr

/-- The defaults of R7, which the test vectors use. -/
def Config.Params.default : Config.Params :=
  { trailerNeedsDataFlag := false, payloadInit := [], maxCrcLen := none }

/-- `Unspec8()` of R12(d), the occurrence numbered `n`: a byte whose value the spec does not fix (R110, U1). Log 5, safe. -/
opaque Config.unspec8 : Nat → Byte

/-- The value numbered `n` that the random source returns beyond the listed ones, before it is brought into the range of
its draw (R58, U4). Log 3, safe. -/
opaque Config.freeDraw : Nat → Nat

/-- What the random source answers to the rest of a corruption loop that begins at its value numbered `n`: the flips
`(p, q)` it makes before the first non-zero `c`, or `none` when it answers `c = 0` for ever (R121, R175, U3). Log 4, safe. -/
opaque Config.freeFlips : Nat → Option (List (Nat × Nat))

/-- `crc8` with the key 0, which the spec leaves undefined (R89, U9). No run reaches it. Log 7, safe. -/
opaque Config.crc8ZeroKey : Bytes → Byte

end Sys2Proof
end

