-- ==== Sys2Proof/Machine/State.lean ====
section
/-! DEFINITION. The state of the block as plain data (10_state.md R15), the inputs and outputs of its steps, the reasons a step
can stop, and the state after reset (10_state.md R34). -/

namespace Sys2Proof.Machine

/-- Why a step stops for good. -/
inductive Fault where
  /-- CARD_READ's corruption loop never ends, because the random source answers `c = 0` for ever: the command never
  responds (R175, U3 "stuck"). Raised only by CARD_READ of an authorised data block. Safe: the block stops there too. -/
  | readNeverEnds
  deriving DecidableEq, Repr

/-- Why a step has no meaning in the model. -/
inductive Refusal where
  /-- The command has no meaning in the model yet. Raised by an arm of `exec` only. Safe. -/
  | notModelled (mnemonic : String)
  deriving DecidableEq, Repr

/-- The six hard failures (R151). -/
inductive HardFailure where
  | opcode
  | frame
  | priv
  | invalidKey
  | notInit
  | addr
  deriving DecidableEq, Repr

/-- What the outside presents to the block between two commands: a frame on a port (R61), or a reset (R170). -/
inductive Event where
  | frame (src : Port) (bytes : Bytes)
  | reset
  deriving DecidableEq, Repr

/-- The validator's key table, one Key A and one Key B for each sector (R24). -/
structure KeyTable where
  s0a : Quad
  s0b : Quad
  s1a : Quad
  s1b : Quad
  deriving DecidableEq, Repr

/-- The card storage as (flat address, byte) pairs, the addresses strictly rising and no byte equal to what an unlisted
address reads as (R19, R36; log 8). -/
abbrev Memory := List Host.Cell

/-- The state: first the thirteen pieces of R15, then the step's inputs and outputs and the model's counters. -/
structure State where
  /-- `CRC_DIV`; bit 8 says that a host BitCRC instance exists (R16). -/
  crcDiv : Divisor
  /-- `CARD_INITD` (R18). -/
  cardInitd : Bool
  /-- `CARD_DIV` (R17). -/
  cardDiv : Divisor
  /-- `MEM` (R19). -/
  mem : Memory
  /-- `B0W` (R20). -/
  b0w : Bool
  /-- `CARD_TYPE`, true for family 1 (R21); no command reads it (U14). -/
  cardType : Bool
  /-- `VAL_INITD` (R22). -/
  valInitd : Bool
  /-- `VAL_EN` (R23). -/
  valEn : Bool
  /-- `VAL_KT` (R24). -/
  valKt : KeyTable
  /-- `VAL_ID` (R25). -/
  valId : Quad
  /-- `VAL_MFG` (R26). -/
  valMfg : Quad
  /-- `VAL_CRCKEY` (R27). -/
  valCrcKey : Byte
  /-- `VAL_SEL`: bit 1 the table's sector, bit 0 the key type (R28). -/
  valSel : BitVec 2
  /-- The model's: the port of the command in progress (R61, R164). Log 10. -/
  port : Port
  /-- The model's: what the outside has still to present, oldest first (R8, R9, R185). Log 1. -/
  pending : List Event
  /-- The model's: the response frames put on the response port, oldest first (R61, R185). Log 1. -/
  responses : List Bytes
  /-- The model's: the values the random source will return, in order (R58, R185). Log 2. -/
  draws : List Nat
  /-- The model's: the number of values taken from the random source beyond `draws`. Log 3. -/
  drawn : Nat
  /-- The model's: the number of unspecified bytes used, `Unspec8()` of R12(d). Log 5. -/
  unspecs : Nat
  /-- The model's: the OPEN parameters of R7, which no step writes. Log 6. -/
  params : Config.Params
  deriving DecidableEq, Repr

/-- The state right after reset (R34, R170): every register and storage byte zero. The last seven fields are the model's
own; their values are DESIGN CHOICE (log 1, 2, 3, 5, 6, 10). -/
def State.reset : State where
  crcDiv := 0
  cardInitd := false
  cardDiv := 0
  mem := []
  b0w := false
  cardType := false
  valInitd := false
  valEn := false
  valKt := ⟨Quad.zero, Quad.zero, Quad.zero, Quad.zero⟩
  valId := Quad.zero
  valMfg := Quad.zero
  valCrcKey := 0
  valSel := 0
  port := .ext
  pending := []
  responses := []
  draws := []
  drawn := 0
  unspecs := 0
  params := Config.Params.default

/-- What a step answers. -/
abbrev Result := Host.Outcome State Fault Refusal

end Sys2Proof.Machine
end

