-- ==== Sys2Proof/Machine/Ops.lean ====
section
/-! DEFINITION. The named operations over storage, the response port, the random source and the input port; taking a hard
failure, the block's only exception (60_exceptions.md R162). -/

namespace Sys2Proof.Machine

/-! ### Storage -/

/-- The number of storage bytes, 2 x 4 x 9 (R19). -/
def memBytes : Nat := 72

/-- The flat address of byte `i` of block `b` of sector `s` (R36). -/
def addr (s : Fin 2) (b : Fin 4) (i : Fin 9) : Nat := 36 * s.val + 9 * b.val + i.val

/-- What an address not listed reads as: 0x00, the reset contents of every storage byte (R34). Log 8. -/
def unlisted : Byte := 0

/-- One byte of storage. -/
def Memory.read : Memory → Nat → Byte
  | [], _ => unlisted
  | c :: m, a => if c.1 = a then c.2 else Memory.read m a

/-- Storage without an entry for `a`. -/
def Memory.erase (m : Memory) (a : Nat) : Memory := m.filter (fun c => c.1 ≠ a)

/-- Storage with an entry put before the first greater address. -/
def Memory.insert : Memory → Nat → Byte → Memory
  | [], a, v => [(a, v)]
  | c :: m, a, v => if a < c.1 then (a, v) :: c :: m else c :: Memory.insert m a v

/-- Storage with byte `a` overwritten; writing what an unlisted address reads as removes the entry. -/
def Memory.write (m : Memory) (a : Nat) (v : Byte) : Memory :=
  if v = unlisted then Memory.erase m a else Memory.insert (Memory.erase m a) a v

/-- `MemWrite` of R12(b): consecutive bytes from a flat address on. -/
def Memory.writeBytes : Memory → Nat → Bytes → Memory
  | m, _, [] => m
  | m, a, v :: vs => Memory.writeBytes (Memory.write m a v) (a + 1) vs

/-- The canonical form: addresses strictly rising and inside the 72 bytes, no entry equal to an unlisted byte. -/
abbrev Memory.wf (m : Memory) : Prop :=
  m.Pairwise (fun c d => c.1 < d.1) ∧ ∀ c ∈ m, c.1 < memBytes ∧ c.2 ≠ unlisted

/-- `MEM[s][b][i]` (R12(b)). -/
def Memory.byte (m : Memory) (s : Fin 2) (b : Fin 4) (i : Fin 9) : Byte := Memory.read m (addr s b i)

/-- `MEM[s][b]`, the nine bytes of a block (R12(b)). -/
def Memory.block (m : Memory) (s : Fin 2) (b : Fin 4) : Bytes :=
  (List.finRange 9).map (Memory.byte m s b)

/-- The state with one storage byte overwritten: the store of CARD_WRITE and CARD_WRITEO (R46). -/
def State.storeByte (st : State) (s : Fin 2) (b : Fin 4) (i : Fin 9) (v : Byte) : State :=
  { st with mem := Memory.write st.mem (addr s b i) v }

/-! ### Responses and hard failures -/

/-- The status byte `OK` (R63). -/
def statusOk : Byte := 0x00

/-- The status byte of a hard failure (R63, R151). -/
def HardFailure.code : HardFailure → Byte
  | .opcode => 0xE0
  | .frame => 0xE1
  | .priv => 0xE2
  | .invalidKey => 0xE3
  | .notInit => 0xE4
  | .addr => 0xE5

/-- `respond(status, payload)`: one response frame on the response port (R12(e), R61, R62). -/
def State.respond (st : State) (status : Byte) (payload : Bytes) : State :=
  { st with responses := st.responses ++ [status :: payload] }

/-- An `OK` response, which ends a command that ran (R62). -/
def State.answer (st : State) (payload : Bytes) : Result := .next (st.respond statusOk payload)

/-- `raise <Error>`, the block's exception entry: the status byte with an empty payload and nothing else; nothing is saved,
no register or storage byte is written, nothing is drawn, control goes nowhere (R12(f), R162). There is no return from it:
the next command runs as if the failed one had not been sent (R163). -/
def State.raise (st : State) (e : HardFailure) : State := st.respond e.code []

/-- A command that ends in a hard failure; the block goes on (R162, R163). -/
def State.fail (st : State) (e : HardFailure) : Result := .next (st.raise e)

/-- The port check of a privileged command (R74 stage 3, R155, R165): on EXT it is not performed in any part. -/
def State.privileged (st : State) (act : Result) : Result :=
  if st.port = .prv then act else st.fail .priv

/-- The existence check of the card (R18, R74 stage 5, R156). -/
def State.needCard (st : State) (act : Result) : Result :=
  if st.cardInitd then act else st.fail .notInit

/-- The existence check of the host BitCRC instance, `CRC_DIV[8]` (R16, R156). -/
def State.needCrc (st : State) (act : Result) : Result :=
  if st.crcDiv.getLsbD 8 then act else st.fail .notInit

/-- The existence check of the validator (R22, R156). -/
def State.needValidator (st : State) (act : Result) : Result :=
  if st.valInitd then act else st.fail .notInit

/-- The hard failure a frame that is no command gets, in the order of R74: the empty frame and a reserved opcode before
the port is looked at (R153), a privileged opcode on EXT before its shape (R161). -/
def State.illegalFrame (st : State) : Illegal → HardFailure
  | .emptyFrame => .frame
  | .reservedOpcode _ => .opcode
  | .malformed op => if st.port = .ext ∧ op.external = false then .priv else .frame

/-- The response to a frame that is no command (R72, R73). -/
def State.rejectFrame (st : State) (e : Illegal) : Result := st.fail (st.illegalFrame e)

/-! ### Response text -/

/-- The ASCII code of a lower-case hexadecimal digit (R76). -/
def hexDigit (d : BitVec 4) : Byte :=
  if d.toNat < 10 then BitVec.ofNat 8 (0x30 + d.toNat) else BitVec.ofNat 8 (0x61 + (d.toNat - 10))

/-- `hex2(b)`: the high digit, then the low (R76). -/
def hex2 (b : Byte) : Bytes := [hexDigit (b.extractLsb' 4 4), hexDigit (b.extractLsb' 0 4)]

/-- Octets with exactly one space between neighbours (R76). -/
def hexText : Bytes → Bytes
  | [] => []
  | [b] => hex2 b
  | b :: bs => hex2 b ++ 0x20 :: hexText bs

/-- The token `"10"`, denied or failed (R77). -/
def tokenNak : Bytes := [0x31, 0x30]

/-- The token `"04"`, write acknowledged (R77). -/
def tokenAck : Bytes := [0x30, 0x34]

/-- A `bool` on a port (R75). -/
def boolByte (b : Bool) : Byte := if b then 0x01 else 0x00

/-! ### The random source and unspecified bytes -/

/-- `Draw(0, n)`, `n > 0`: the next value of the random source, inside the range of the draw (R58). A listed value is taken
modulo `n`, which changes no value the source may return (log 2); beyond the list the value is free (log 3). -/
def State.draw (st : State) (n : Nat) : Nat × State :=
  match st.draws with
  | v :: rest => (v % n, { st with draws := rest })
  | [] => (Config.freeDraw st.drawn % n, { st with drawn := st.drawn + 1 })

/-- `Draw(0, 256)` as a byte. -/
def State.drawByte (st : State) : Byte × State :=
  let (v, st) := st.draw 256
  (BitVec.ofNat 8 v, st)

/-- Four draws `Draw(0, 256)`, bytes 0 to 3 in that order (R107, R109, R141). -/
def State.drawQuad (st : State) : Quad × State :=
  let (b0, st) := st.drawByte
  let (b1, st) := st.drawByte
  let (b2, st) := st.drawByte
  let (b3, st) := st.drawByte
  (⟨b0, b1, b2, b3⟩, st)

/-- Sixteen draws: sector 0 Key A, sector 0 Key B, sector 1 Key A, sector 1 Key B (R110(c), R114, R141). -/
def State.drawKeyTable (st : State) : KeyTable × State :=
  let (s0a, st) := st.drawQuad
  let (s0b, st) := st.drawQuad
  let (s1a, st) := st.drawQuad
  let (s1b, st) := st.drawQuad
  (⟨s0a, s0b, s1a, s1b⟩, st)

/-- Four unspecified bytes, each a free value of its own (R12(d), U1; log 5). -/
def State.unspecQuad (st : State) : Quad × State :=
  let n := st.unspecs
  (⟨Config.unspec8 n, Config.unspec8 (n + 1), Config.unspec8 (n + 2), Config.unspec8 (n + 3)⟩, { st with unspecs := n + 4 })

/-- Sixteen unspecified bytes (R110(a)). -/
def State.unspecKeyTable (st : State) : KeyTable × State :=
  let (s0a, st) := st.unspecQuad
  let (s0b, st) := st.unspecQuad
  let (s1a, st) := st.unspecQuad
  let (s1b, st) := st.unspecQuad
  (⟨s0a, s0b, s1a, s1b⟩, st)

/-! ### Input and reset -/

/-- The state in which a frame that arrived on `src` is executed, `rest` still to come (R8, R61). -/
def State.accept (st : State) (src : Port) (rest : List Event) : State :=
  { st with port := src, pending := rest }

/-- The effect of a reset between commands: every register and storage byte takes its value of R34, nothing is retained
(R170, R171). What is outside the block stays: the events to come, the responses already given, the random source and the
parameters (log 9). -/
def State.applyReset (st : State) (rest : List Event) : State :=
  { State.reset with
    pending := rest, responses := st.responses, draws := st.draws, drawn := st.drawn, unspecs := st.unspecs, params := st.params }

end Sys2Proof.Machine
end

