-- ==== Sys2Proof/Machine/Flags.lean ====
section
/-! DEFINITION. The flags of the access-conditions byte (10_state.md R30, 20_memory.md R49, R50) and the bits of the two FLAGS
operands (30_encoding.md R70, R71). The block has no status flags (R29). -/

namespace Sys2Proof.Machine

/-- `op` of R49: 0 read, 1 write. -/
def opBit : AccessOp → Nat
  | .read => 0
  | .write => 1

/-- `t` of R49: 0 Key A, 1 Key B. -/
def keyBit : KeyType → Nat
  | .a => 0
  | .b => 1

/-- The bit of the access byte that gates an access: `7 - (4k + 2t + op)`, with `k = 1` for the trailer (R49). -/
def flagIndex (op : AccessOp) (t : KeyType) (trailer : Bool) : Nat :=
  7 - (4 * trailer.toNat + 2 * keyBit t + opBit op)

/-- `FLAG`: the gating flag, true when its bit is 1 (R30, R49, C1). -/
def accessFlag (ac : Byte) (op : AccessOp) (t : KeyType) (trailer : Bool) : Bool :=
  ac.getLsbD (flagIndex op t trailer)

/-- `FLAGS_OK` for an access byte: a data block needs its data flag; the trailer needs its trailer flag and, only when
`TRAILER_NEEDS_DATA_FLAG` is true, the data flag as well (R50, C10). -/
def flagsOk (p : Config.Params) (ac : Byte) (blk : Fin 4) (op : AccessOp) (t : KeyType) : Bool :=
  if blk = 3 then accessFlag ac op t true && (!p.trailerNeedsDataFlag || accessFlag ac op t false)
  else accessFlag ac op t false

/-- `ID_V`, FLAGS bit 7 (R70). -/
def flagIdV (flags : Byte) : Bool := flags.getLsbD 7

/-- `MFG_V`, FLAGS bit 6 (R70). -/
def flagMfgV (flags : Byte) : Bool := flags.getLsbD 6

/-- `KEYS_V`, FLAGS bit 5 (R70). -/
def flagKeysV (flags : Byte) : Bool := flags.getLsbD 5

/-- `AC_V`, FLAGS bit 4 (R70). -/
def flagAcV (flags : Byte) : Bool := flags.getLsbD 4

/-- `KDF`, FLAGS bit 3 (R70). -/
def flagKdf (flags : Byte) : Bool := flags.getLsbD 3

/-- `B0W`, FLAGS bit 2 (R70). -/
def flagB0w (flags : Byte) : Bool := flags.getLsbD 2

/-- `TYPE`, FLAGS bit 1 (R70). -/
def flagType (flags : Byte) : Bool := flags.getLsbD 1

/-- `VAL_EN`, VFLAGS bit 0 (R71). -/
def flagValEn (vflags : Byte) : Bool := vflags.getLsbD 0

end Sys2Proof.Machine
end

