-- ==== Sys2Proof/Machine/Operands.lean ====
section
/-! DEFINITION. Operand forms: coordinates checked against the storage shape (20_memory.md R48), the stored keys (R42), and the
authorisation function `AUTH` (R52). -/

namespace Sys2Proof.Machine

/-- A sector field inside the shape, `none` above 1 (R48, R67). -/
def sectorOf (ss : Byte) : Option (Fin 2) := if h : ss.toNat < 2 then some ⟨ss.toNat, h⟩ else none

/-- A block field inside the shape, `none` above 3 (R48, R67). -/
def blockOf (bb : Byte) : Option (Fin 4) := if h : bb.toNat < 4 then some ⟨bb.toNat, h⟩ else none

/-- An offset field inside a block, `none` above 8: the range of CARD_WRITEO (R126). -/
def offsetOf (oo : Byte) : Option (Fin 9) := if h : oo.toNat < 9 then some ⟨oo.toNat, h⟩ else none

/-- `MAX_WRITE_OFFSET`: the largest offset CARD_WRITE accepts (R6, R48). -/
def maxWriteOffset : Nat := 7

/-- An offset field CARD_WRITE accepts, `none` above 7 (R48, R125). -/
def writeOffsetOf (oo : Byte) : Option (Fin 9) := if oo.toNat ≤ maxWriteOffset then offsetOf oo else none

/-- Four consecutive storage bytes of a block. -/
def Memory.quad (m : Memory) (s : Fin 2) (b : Fin 4) (i0 i1 i2 i3 : Fin 9) : Quad :=
  ⟨Memory.byte m s b i0, Memory.byte m s b i1, Memory.byte m s b i2, Memory.byte m s b i3⟩

/-- `KEY(s, t)`: trailer bytes 0 to 3 for Key A, 5 to 8 for Key B (R42). -/
def Memory.key (m : Memory) (s : Fin 2) : KeyType → Quad
  | .a => Memory.quad m s 3 0 1 2 3
  | .b => Memory.quad m s 3 5 6 7 8

/-- `AC[s]`, the access-conditions byte of a sector (R30). -/
def Memory.access (m : Memory) (s : Fin 2) : Byte := Memory.byte m s 3 4

/-- `FLAGS_OK` and `KEY_OK` for coordinates inside the shape (R50, R51, R52). -/
def State.authorised (st : State) (op : AccessOp) (s : Fin 2) (b : Fin 4) (t : KeyType) (key : Quad) : Bool :=
  flagsOk st.params (Memory.access st.mem s) b op t && decide (key = Memory.key st.mem s t)

/-- `AUTH`: the authorised target of an access, `none` when the range, a flag or the key fails (R52). -/
def State.auth (st : State) (op : AccessOp) (ss bb : Byte) (t : KeyType) (key : Quad) : Option (Fin 2 × Fin 4) :=
  match sectorOf ss, blockOf bb with
  | some s, some b => if st.authorised op s b t key then some (s, b) else none
  | _, _ => none

/-- The key of a key table for a sector and a key type (R24). -/
def KeyTable.key (kt : KeyTable) (sector1 : Bool) : KeyType → Quad
  | .a => if sector1 then kt.s1a else kt.s0a
  | .b => if sector1 then kt.s1b else kt.s0b

/-- The key type a `VAL_SEL` selects, its bit 0 (R28, R142). -/
def selKeyType (sel : BitVec 2) : KeyType := if sel.getLsbD 0 then .b else .a

/-- The key a `VAL_SEL` selects: `VAL_KT[s][t]` with `s` its bit 1 and `t` its bit 0 (R28, R142). -/
def KeyTable.selected (kt : KeyTable) (sel : BitVec 2) : Quad := kt.key (sel.getLsbD 1) (selKeyType sel)

end Sys2Proof.Machine
end

