-- ==== Sys2Proof/Machine/Crc.lean ====
section
/-! DEFINITION. BitCRC (40_crc.md): the function `crc8` by long division (R87), its serial form (R90), the key policy (R93), and
the commands CRC_INIT, CRC_GETDIV, CRC_CALC. -/

namespace Sys2Proof.Machine

/-- The bits of a byte, most significant first (R10, R43). -/
def byteBits (b : Byte) : List Bool :=
  [b.getLsbD 7, b.getLsbD 6, b.getLsbD 5, b.getLsbD 4, b.getLsbD 3, b.getLsbD 2, b.getLsbD 1, b.getLsbD 0]

/-- `DIV(K)`, the nine divisor bits, `1` first (R86). -/
def divisorBits (k : Byte) : List Bool := true :: byteBits k

/-- The message bits of a byte list, byte 0 first (R87 step 1). -/
def messageBits (data : Bytes) : List Bool := data.flatMap byteBits

/-- Exclusive-or of a bit sequence into the front of a longer one. -/
def xorFront : List Bool → List Bool → List Bool
  | d :: ds, w :: ws => (d ^^ w) :: xorFront ds ws
  | [], ws => ws
  | _ :: _, [] => []

/-- Binary long division over `n` positions from the left (R87 step 2). The list is `W` from the current position on: a
position that has been visited holds 0 from then on (R88) and is dropped. -/
def longDivide (k : Byte) : Nat → List Bool → List Bool
  | 0, w => w
  | _ + 1, [] => []
  | n + 1, b :: w => longDivide k n (if b then (xorFront (divisorBits k) (b :: w)).tail else w)

/-- A byte from its bits, most significant first (R87 step 3). -/
def bitsByte (bits : List Bool) : Byte := bits.foldl (fun r b => (r <<< 1) ||| (if b then 1 else 0)) 0

/-- The remainder of the long division of the message, augmented with eight zero bits, by `DIV(K)` (R87, R88). -/
def divisionRemainder (k : Byte) (data : Bytes) : Byte :=
  bitsByte (longDivide k (8 * data.length) (messageBits data ++ List.replicate 8 false))

/-- `crc8(K, data)` (R87). It is not defined for the key 0 (R89), where the value is free (log 7). -/
def crc8 (k : Byte) (data : Bytes) : Byte :=
  if k = 0 then Config.crc8ZeroKey data else divisionRemainder k data

/-- One message bit of the serial form: `f <- R[7] ^ w`, shift left, exclusive-or the key when `f` (R90). -/
def serialStep (k r : Byte) (w : Bool) : Byte :=
  if r.getLsbD 7 ^^ w then (r <<< 1) ^^^ k else r <<< 1

/-- The serial form of the division, an 8-bit register run over the message bits (R90). -/
def serialCrc (k : Byte) (data : Bytes) : Byte := (messageBits data).foldl (serialStep k) 0

/-- `KEY_POLICY_OK(K)`: odd, with an odd number of set bits. No command evaluates it (R93, R181). -/
def keyPolicyOk (k : Byte) : Bool := k.getLsbD 0 && (byteBits k).foldl (· ^^ ·) false

/-- The divisor register for a key, `0x100 | K` (R86, R94, R106). -/
def divisorOf (k : Byte) : Divisor := 0x100#9 ||| k.setWidth 9

/-- The key byte of a divisor register, its bits 7 to 0. -/
def divisorKey (d : Divisor) : Byte := d.setWidth 8

/-- `n <= MAX_CRC_LEN` when that parameter is bounded (R64, R96). -/
def crcLengthOk (p : Config.Params) (n : Nat) : Bool :=
  match p.maxCrcLen with
  | none => true
  | some limit => decide (n ≤ limit)

/-- CRC_INIT (R94): `CRC_DIV <- 0x100 | K`; a zero key is `ERR_INVALID_KEY` and the old divisor stays. -/
def execCrcInit (k : Byte) (s : State) : Result :=
  s.privileged <|
    if k = 0 then s.fail .invalidKey
    else { s with crcDiv := divisorOf k }.answer []

/-- CRC_GETDIV (R95): the nine divisor bits as two bytes, most significant first. -/
def execCrcGetdiv (s : State) : Result :=
  s.privileged <| s.needCrc <|
    s.answer [BitVec.setWidth 8 (s.crcDiv.extractLsb' 8 1), divisorKey s.crcDiv]

/-- CRC_CALC (R96): `crc8(CRC_DIV[7:0], data)`. A length above a bounded `MAX_CRC_LEN` is a wrong frame length, stage (4)
of R74, so it comes before the existence check (log 12). -/
def execCrcCalc (data : Bytes) (s : State) : Result :=
  s.privileged <|
    if crcLengthOk s.params data.length then s.needCrc <| s.answer [crc8 (divisorKey s.crcDiv) data]
    else s.fail .frame

end Sys2Proof.Machine
end

