-- ==== Sys2Proof/Machine/Chain.lean ====
section
/-! DEFINITION. The chained checksum (41_card_init_check.md R100 to R103) and the command CARD_CHECK (R116). -/

namespace Sys2Proof.Machine

/-- `PROT(s)`, the protected blocks of a sector in ascending order (R41). -/
def protectedBlocks (s : Fin 2) : List (Fin 4) := if s = 0 then [1, 2] else [0, 1, 2]

/-- Every protected block, sector 0 first, ascending in each sector (R41, R103). -/
def protectedAll : List (Fin 2 × Fin 4) :=
  (protectedBlocks 0).map (fun j => (0, j)) ++ (protectedBlocks 1).map (fun j => (1, j))

/-- `CHAIN_IN(s, j)`: all nine bytes of every block before `j`, then the first eight of `j` (R100). -/
def Memory.chainIn (m : Memory) (s : Fin 2) (j : Fin 4) : Bytes :=
  ((List.finRange 4).filter (· < j)).flatMap (Memory.block m s) ++ (Memory.block m s j).take 8

/-- `CHAIN_VAL(s, j)` under a divisor; the key is never re-read from storage (R101, C5). -/
def chainVal (d : Divisor) (m : Memory) (s : Fin 2) (j : Fin 4) : Byte :=
  crc8 (divisorKey d) (Memory.chainIn m s j)

/-- `CHAIN_OK()` under a divisor (R102). -/
def chainOk (d : Divisor) (m : Memory) : Bool :=
  protectedAll.all (fun sj => Memory.byte m sj.1 sj.2 8 == chainVal d m sj.1 sj.2)

/-- The chain write: every protected block's checksum in ascending order, each over the bytes already written (R103). -/
def chainWrite (d : Divisor) (m : Memory) : Memory :=
  protectedAll.foldl (fun m sj => Memory.write m (addr sj.1 sj.2 8) (chainVal d m sj.1 sj.2)) m

/-- `CHAIN_OK()` of the block's card, which uses `CARD_DIV` (R101, R102). -/
def State.chainOk (st : State) : Bool := Sys2Proof.Machine.chainOk st.cardDiv st.mem

/-- CARD_CHECK (R116). -/
def execCardCheck (s : State) : Result :=
  s.privileged <| s.needCard <| s.answer [boolByte s.chainOk]

end Sys2Proof.Machine
end

