-- ==== Sys2Proof/Machine/Access.lean ====
section
/-! DEFINITION. Card reads and writes (42_card_access.md): CARD_READ, CARD_READI, CARD_WRITE, CARD_WRITEO. -/

namespace Sys2Proof.Machine

/-- One flip of the corruption loop: `buf[p] <- buf[p] ^ (1 << q)` (R121). -/
def flipBit (buf : Bytes) (p q : Nat) : Bytes := buf.modify p (fun b => b ^^^ ((1 : Byte) <<< q))

/-- A whole list of flips, each position brought into `[0, 8)`. -/
def flipBits (buf : Bytes) (flips : List (Nat × Nat)) : Bytes :=
  flips.foldl (fun buf pq => flipBit buf (pq.1 % 8) (pq.2 % 8)) buf

/-- The corruption loop beyond the listed draws, from value `k` of the source on: `m` free flips take `3m + 1` values; `none`
when the source never ends the loop (R121, R175; log 4). -/
def corruptFree (k : Nat) (buf : Bytes) : Option (Bytes × List Nat × Nat) :=
  (Config.freeFlips k).map (fun flips => (flipBits buf flips, [], k + 3 * flips.length + 1))

/-- The corruption loop (R121): `c <- Draw(0, 3)`; a non-zero `c` ends it; else `p <- Draw(0, 8)`, `q <- Draw(0, 8)`, flip, and
again. The answer is the buffer, the draws left and the number of values taken beyond them. There is no cap (R175, D29). -/
def corrupt : List Nat → Nat → Bytes → Option (Bytes × List Nat × Nat)
  | [], k, buf => corruptFree k buf
  | [c], k, buf =>
    if c % 3 = 0 then corruptFree (k + 2) (flipBit buf (Config.freeDraw k % 8) (Config.freeDraw (k + 1) % 8))
    else some (buf, [], k)
  | [c, p], k, buf =>
    if c % 3 = 0 then corruptFree (k + 1) (flipBit buf (p % 8) (Config.freeDraw k % 8)) else some (buf, [p], k)
  | c :: p :: q :: rest, k, buf =>
    if c % 3 = 0 then corrupt rest k (flipBit buf (p % 8) (q % 8)) else some (buf, p :: q :: rest, k)

/-- The exclusive-or of the nine original bytes of a block (R122). -/
def parity (block : Bytes) : Byte := block.foldl (· ^^^ ·) 0

/-- The noisy read of a data block (R121 to R123): eight octets, possibly corrupted, and the true parity. Storage is not
changed. -/
def State.noisyRead (st : State) (s : Fin 2) (b : Fin 4) : Result :=
  let orig := Memory.block st.mem s b
  match corrupt st.draws st.drawn (orig.take 8) with
  | none => .fault .readNeverEnds
  | some (buf, draws, drawn) => { st with draws := draws, drawn := drawn }.answer (hexText (buf ++ [parity orig]))

/-- CARD_READ (R120): `"10"` when not authorised; a trailer gives its access byte twice, never a key; a data block the
noisy read. -/
def execCardRead (ss bb : Byte) (kt : KeyType) (key : Quad) (s : State) : Result :=
  s.needCard <|
    match s.auth .read ss bb kt key with
    | none => s.answer tokenNak
    | some (sec, blk) =>
      if blk = 3 then s.answer (hexText [Memory.access s.mem sec, Memory.access s.mem sec])
      else s.noisyRead sec blk

/-- `ReadInternalBlock`, the authoritative read (R124): empty when not authorised, the access byte twice for a trailer, the
nine raw bytes for a data block. Used by CARD_READI and inside VAL_CHECK (R143). -/
def State.authoritativeRead (st : State) (ss bb : Byte) (kt : KeyType) (key : Quad) : Bytes :=
  match st.auth .read ss bb kt key with
  | none => []
  | some (sec, blk) =>
    if blk = 3 then [Memory.access st.mem sec, Memory.access st.mem sec] else Memory.block st.mem sec blk

/-- CARD_READI (R124). -/
def execCardReadi (ss bb : Byte) (kt : KeyType) (key : Quad) (s : State) : Result :=
  s.privileged <| s.needCard <| s.answer (s.authoritativeRead ss bb kt key)

/-- The byte a CARD_WRITE stores to: `none` when the range, the offset, the flag, the key or the identity-block lock fails
(R53, R125). -/
def State.writeTarget (st : State) (ss bb oo : Byte) (kt : KeyType) (key : Quad) : Option (Fin 2 × Fin 4 × Fin 9) :=
  match writeOffsetOf oo, st.auth .write ss bb kt key with
  | some off, some (sec, blk) => if sec = 0 ∧ blk = 0 ∧ st.b0w = false then none else some (sec, blk, off)
  | _, _ => none

/-- CARD_WRITE (R125): overwrites the single target byte and answers `"04"`, or changes nothing and answers `"10"`. No
checksum is recomputed (R127). -/
def execCardWrite (ss bb oo : Byte) (kt : KeyType) (key : Quad) (dd : Byte) (s : State) : Result :=
  s.needCard <|
    match s.writeTarget ss bb oo kt key with
    | none => s.answer tokenNak
    | some (sec, blk, off) => (s.storeByte sec blk off dd).answer tokenAck

/-- The byte a CARD_WRITEO stores to: any byte of the shape, offset 8 included (R126). -/
def overrideTarget (ss bb oo : Byte) : Option (Fin 2 × Fin 4 × Fin 9) :=
  match sectorOf ss, blockOf bb, offsetOf oo with
  | some sec, some blk, some off => some (sec, blk, off)
  | _, _, _ => none

/-- CARD_WRITEO (R126): no flag, no key, no lock; out of the shape is `ERR_ADDR`. -/
def execCardWriteo (ss bb oo dd : Byte) (s : State) : Result :=
  s.privileged <| s.needCard <|
    match overrideTarget ss bb oo with
    | none => s.fail .addr
    | some (sec, blk, off) => (s.storeByte sec blk off dd).answer []

end Sys2Proof.Machine
end

