-- ==== Sys2Proof/Machine/Card.lean ====
section
/-! DEFINITION. CARD_INIT (41_card_init_check.md R104 to R115), one definition per step of the rule. -/

namespace Sys2Proof.Machine

/-- Step 2 for storage: all 72 bytes 0x00, then the payload bytes of the five protected blocks from `PAYLOAD_INIT` (R106). -/
def blankStorage (p : Config.Params) : Memory :=
  protectedAll.foldl
    (fun m sj => Memory.writeBytes m (addr sj.1 sj.2 0) (((List.finRange 9).take 8).map (Memory.byte p.payloadInit sj.1 sj.2))) []

/-- Step 2: the divisor and the cleared storage (R106). -/
def State.beginCard (st : State) (crcKey : Byte) : State :=
  { st with cardDiv := divisorOf crcKey, mem := blankStorage st.params }

/-- Step 3: the card ID, supplied or drawn (R107). -/
def State.initId (st : State) (flags : Byte) (id : Quad) : State :=
  let (q, st) := if flagIdV flags then (id, st) else st.drawQuad
  { st with mem := Memory.writeBytes st.mem (addr 0 0 0) q.toList }

/-- Step 4: the stored copy of the checksum key (R108). -/
def State.initKeyCopy (st : State) (crcKey : Byte) : State :=
  { st with mem := Memory.write st.mem (addr 0 0 4) crcKey }

/-- Step 5: card type and manufacturing data, supplied or drawn, the type before the bytes (R109). -/
def State.initMfg (st : State) (flags : Byte) (mfg : Quad) : State :=
  let (family, q, st) :=
    if flagMfgV flags then (flagType flags, mfg, st)
    else
      let (v, st) := st.draw 2
      let (q, st) := st.drawQuad
      (v == 1, q, st)
  { st with cardType := family, mem := Memory.writeBytes st.mem (addr 0 0 5) q.toList }

/-- The keys of both trailers. -/
def Memory.writeKeys (m : Memory) (kt : KeyTable) : Memory :=
  let m := Memory.writeBytes m (addr 0 3 0) kt.s0a.toList
  let m := Memory.writeBytes m (addr 0 3 5) kt.s0b.toList
  let m := Memory.writeBytes m (addr 1 3 0) kt.s1a.toList
  Memory.writeBytes m (addr 1 3 5) kt.s1b.toList

/-- Step 6: the keys, tested in this order: unspecified with `KDF`, supplied with `KEYS_V`, else drawn (R110). -/
def State.initKeys (st : State) (flags : Byte) (keys : KeyTable) : State :=
  let (kt, st) :=
    if flagKdf flags then st.unspecKeyTable
    else if flagKeysV flags then (keys, st)
    else st.drawKeyTable
  { st with mem := Memory.writeKeys st.mem kt }

/-- `AC_DEFAULT`, every flag set (R6, R111, C1). -/
def acDefault : Byte := 0xFF

/-- Step 7: the access-conditions bytes (R111). -/
def State.initAccess (st : State) (flags ac0 ac1 : Byte) : State :=
  let m := Memory.write st.mem (addr 0 3 4) (if flagAcV flags then ac0 else acDefault)
  { st with mem := Memory.write m (addr 1 3 4) (if flagAcV flags then ac1 else acDefault) }

/-- Steps 8 and 9: the chain write after every other storage write, then `B0W` and `CARD_INITD` (R112, R113). -/
def State.finishCard (st : State) (flags : Byte) : State :=
  { st with mem := chainWrite st.cardDiv st.mem, b0w := flagB0w flags, cardInitd := true }

/-- The state a CARD_INIT with a non-zero key leaves, its response apart (R104). -/
def State.buildCard (st : State) (flags crcKey : Byte) (id mfg : Quad) (keys : KeyTable) (ac0 ac1 : Byte) : State :=
  (((((((st.beginCard crcKey).initId flags id).initKeyCopy crcKey).initMfg flags mfg).initKeys flags keys).initAccess
    flags ac0 ac1).finishCard flags)

/-- CARD_INIT (R104): a zero key is `ERR_INVALID_KEY` before anything else, an existing card untouched (R105). -/
def execCardInit (flags crcKey : Byte) (id mfg s0ka s0kb s1ka s1kb : Quad) (ac0 ac1 : Byte) (s : State) : Result :=
  s.privileged <|
    if crcKey = 0 then s.fail .invalidKey
    else (s.buildCard flags crcKey id mfg ⟨s0ka, s0kb, s1ka, s1kb⟩ ac0 ac1).answer []

end Sys2Proof.Machine
end

