-- ==== Sys2Proof/Machine/Validator.lean ====
section
/-! DEFINITION. The validator (43_validator.md): VAL_INIT and VAL_CHECK. -/

namespace Sys2Proof.Machine

/-- The state a VAL_INIT leaves, its response apart: the key table, the reference ID and, only when enabled, the key index
are drawn in that order (R140, R141); disabled, `VAL_SEL` is 0 (D32). -/
def State.buildValidator (st : State) (vflags vk : Byte) (vmfg : Quad) : State :=
  let (kt, st) := st.drawKeyTable
  let (id, st) := st.drawQuad
  let (sel, st) := if flagValEn vflags then st.draw 4 else (0, st)
  { st with
    valKt := kt, valId := id, valMfg := vmfg, valCrcKey := vk, valEn := flagValEn vflags, valSel := BitVec.ofNat 2 sel
    valInitd := true }

/-- VAL_INIT (R140). It has no operand check: `VK = 0x00` is accepted (R73, R152, D21). -/
def execValInit (vflags vk : Byte) (vmfg : Quad) (s : State) : Result :=
  s.privileged <| (s.buildValidator vflags vk vmfg).answer []

/-- The comparisons of `CheckData` on the bytes of the authoritative read: a non-empty read, the stored key byte, the ID, the
manufacturing data (R143, R144 conditions 1 to 4). -/
def State.fingerprintOk (st : State) : Bytes → Bool
  | [i0, i1, i2, i3, k, m0, m1, m2, m3] =>
    decide (k = st.valCrcKey) && decide ((⟨i0, i1, i2, i3⟩ : Quad) = st.valId) && decide ((⟨m0, m1, m2, m3⟩ : Quad) = st.valMfg)
  | _ => false

/-- `CheckData(card)` of an enabled validator: one authoritative read of sector 0 block 0 with the selected key, the three
comparisons, the chain (R142, R143). -/
def State.certified (st : State) : Bool :=
  st.fingerprintOk (st.authoritativeRead 0 0 (selKeyType st.valSel) (st.valKt.selected st.valSel)) && st.chainOk

/-- VAL_CHECK (R143): disabled, it is `true` whether or not a card exists; enabled, a card must exist (R156, D22). -/
def execValCheck (s : State) : Result :=
  s.privileged <| s.needValidator <|
    if s.valEn then s.needCard <| s.answer [boolByte s.certified] else s.answer [boolByte true]

end Sys2Proof.Machine
end

