-- ==== Sys2Proof/Machine/Dispatch.lean ====
section
/-! DEFINITION. One arm per command: the call of its meaning. -/

namespace Sys2Proof.Machine

def exec (i : Instr) (s : State) : Host.Outcome State Fault Refusal :=
  match i with
  | .crcInit k => Sys2Proof.Machine.execCrcInit k s
  | .crcGetdiv => Sys2Proof.Machine.execCrcGetdiv s
  | .crcCalc data => Sys2Proof.Machine.execCrcCalc data s
  | .cardInit flags crcKey id mfg s0ka s0kb s1ka s1kb ac0 ac1 => Sys2Proof.Machine.execCardInit flags crcKey id mfg s0ka s0kb s1ka s1kb ac0 ac1 s
  | .cardCheck => Sys2Proof.Machine.execCardCheck s
  | .cardRead ss bb kt key => Sys2Proof.Machine.execCardRead ss bb kt key s
  | .cardReadi ss bb kt key => Sys2Proof.Machine.execCardReadi ss bb kt key s
  | .cardWrite ss bb oo kt key dd => Sys2Proof.Machine.execCardWrite ss bb oo kt key dd s
  | .cardWriteo ss bb oo dd => Sys2Proof.Machine.execCardWriteo ss bb oo dd s
  | .valInit vflags vk vmfg => Sys2Proof.Machine.execValInit vflags vk vmfg s
  | .valCheck => Sys2Proof.Machine.execValCheck s

end Sys2Proof.Machine
end

