-- ==== Sys2Proof/Machine/Step.lean ====
section
/-! DEFINITION. One step of the block: one event from outside (00_scope.md R8). -/

namespace Sys2Proof.Machine

/-- One step. With nothing pending the block does nothing (R35, R172; log 11). A reset is R170's. A frame is decoded and run
to completion, and is answered with one response frame (R61, R74). -/
def step (s : State) : Host.Outcome State Fault Refusal :=
  match s.pending with
  | [] => .next s
  | .reset :: rest => .next (s.applyReset rest)
  | .frame src bytes :: rest =>
    match decode bytes with
    | .ok i => exec i (s.accept src rest)
    | .error e => (s.accept src rest).rejectFrame e

/-- `s` with the frame of an opcode-table word presented next, on the privileged port (log 13). -/
def State.withFetchWord (s : State) (nbits w : Nat) : State :=
  { s with pending := .frame .prv (frameOfWord nbits w) :: s.pending }

end Sys2Proof.Machine
end

