-- ==== Sys2Proof/Safety.lean ====
section
/-! DEFINITION. The terms claims are stated in: the invariant of the block (10_state.md R33, R34), the sequence of values the
random source returns, and states that agree but for one command's response. -/

namespace Sys2Proof.Machine

/-- A divisor register is 0x000 before its unit exists, and `0x100 | K` with `K` non-zero from then on (R16, R17, R33(e)). -/
abbrev divisorLegal (d : Divisor) : Prop := d = 0 ∨ (d.getLsbD 8 = true ∧ divisorKey d ≠ 0)

/-- What holds of the block at reset and after every step. -/
structure State.Inv (s : State) : Prop where
  /-- Storage is in its canonical form, inside the 72 bytes (R19). -/
  memWf : Memory.wf s.mem
  crcDivLegal : divisorLegal s.crcDiv
  cardDivLegal : divisorLegal s.cardDiv
  /-- A card's divisor has a non-zero key (R33(b)). -/
  cardDivSet : s.cardInitd = true → divisorKey s.cardDiv ≠ 0
  /-- Without a card its registers and storage hold their reset values (R34). -/
  noCard : s.cardInitd = false → s.mem = [] ∧ s.cardDiv = 0 ∧ s.b0w = false ∧ s.cardType = false
  /-- Without a validator its registers hold their reset values (R34). -/
  noValidator : s.valInitd = false →
    s.valEn = false ∧ s.valKt = ⟨Quad.zero, Quad.zero, Quad.zero, Quad.zero⟩ ∧ s.valId = Quad.zero ∧ s.valMfg = Quad.zero ∧
      s.valCrcKey = 0
  /-- A disabled validator has no key index (R140, D32). -/
  disabledSel : s.valEn = false → s.valSel = 0

/-- The value numbered `k`, from `s` on, that the random source returns (R58). -/
def State.source (s : State) (k : Nat) : Nat :=
  if h : k < s.draws.length then s.draws[k] else Config.freeDraw (s.drawn + (k - s.draws.length))

/-- `s` after `k` values have been taken from the random source. -/
def State.skipDraws (s : State) (k : Nat) : State :=
  { s with draws := s.draws.drop k, drawn := s.drawn + (k - s.draws.length) }

/-- The byte a `Draw(0, 256)` makes of a value of the source. -/
def State.sourceByte (s : State) (k : Nat) : Byte := BitVec.ofNat 8 (s.source k % 256)

/-- The four bytes drawn from value `k` of the source on. -/
def State.sourceQuad (s : State) (k : Nat) : Quad :=
  ⟨s.sourceByte k, s.sourceByte (k + 1), s.sourceByte (k + 2), s.sourceByte (k + 3)⟩

/-- The sixteen key bytes drawn from value `k` of the source on, in the order of R114 and R141. -/
def State.sourceKeys (s : State) (k : Nat) : KeyTable :=
  ⟨s.sourceQuad k, s.sourceQuad (k + 4), s.sourceQuad (k + 8), s.sourceQuad (k + 12)⟩

/-- The four unspecified bytes from number `n` on (R12(d)). -/
def freeQuad (n : Nat) : Quad :=
  ⟨Config.unspec8 n, Config.unspec8 (n + 1), Config.unspec8 (n + 2), Config.unspec8 (n + 3)⟩

/-- `s` with one more response frame and nothing else changed: what a command that only answers leaves. -/
def State.answered (s : State) (frame : Bytes) : State := { s with responses := s.responses ++ [frame] }

end Sys2Proof.Machine
end

