-- ==== Sys2Proof/Certificates/Slice0/Obligations.lean ====
section
/-! DEFINITION. The statements for the provers. A status byte, a frame byte or a bit number is written as the number the spec
gives, not as a name of the model. `s.answered f` is `s` with the response frame `f` added and nothing else changed;
`s.accept src rest` is `s` with the frame taken from port `src` and `rest` still to come. -/

open Sys2Proof Sys2Proof.Machine

/-! ### Frames, ports and decoding -/

/-- Decoding the frame of a well-formed command gives that command, every operand at every value (R64, R65). -/
def Obligations.DecodeOfEncode : Prop :=
  ∀ i : Instr, i.wf = true → decode (encode i) = .ok i

/-- A frame that decodes is the frame of the command it decodes to, and that command is well-formed (R64, R65, R73). -/
def Obligations.EncodeOfDecode : Prop :=
  ∀ (f : Bytes) (i : Instr), decode f = .ok i → encode i = f ∧ i.wf = true

/-- The operand bytes of every format stand where R65's table puts them, for every value of each byte; and frames of the spec's own vectors decode to the
commands they stand for: V29, V31, V38b, V40, V48d, V50 of 95_test_vectors.md, P1 step 7, P2 step 17 (R65, R66, R68). -/
def Obligations.FramesOfTheSpecDecode : Prop :=
  (∀ k : Byte, decode [0x10, k] = .ok (.crcInit k)) ∧ decode [0x11] = .ok .crcGetdiv ∧
  (∀ data : Bytes, decode (0x12 :: data) = .ok (.crcCalc data)) ∧
  (∀ flags k i0 i1 i2 i3 m0 m1 m2 m3 a0 a1 a2 a3 b0 b1 b2 b3 c0 c1 c2 c3 d0 d1 d2 d3 ac0 ac1 : Byte, flags.getLsbD 0 = false →
    decode [0x20, flags, k, i0, i1, i2, i3, m0, m1, m2, m3, a0, a1, a2, a3, b0, b1, b2, b3, c0, c1, c2, c3, d0, d1, d2, d3, ac0, ac1] =
      .ok (.cardInit flags k ⟨i0, i1, i2, i3⟩ ⟨m0, m1, m2, m3⟩ ⟨a0, a1, a2, a3⟩ ⟨b0, b1, b2, b3⟩ ⟨c0, c1, c2, c3⟩ ⟨d0, d1, d2, d3⟩ ac0 ac1)) ∧
  decode [0x21] = .ok .cardCheck ∧
  (∀ ss bb k0 k1 k2 k3 : Byte,
    decode [0x30, ss, bb, 0x00, k0, k1, k2, k3] = .ok (.cardRead ss bb .a ⟨k0, k1, k2, k3⟩) ∧
    decode [0x30, ss, bb, 0x01, k0, k1, k2, k3] = .ok (.cardRead ss bb .b ⟨k0, k1, k2, k3⟩) ∧
    decode [0x31, ss, bb, 0x00, k0, k1, k2, k3] = .ok (.cardReadi ss bb .a ⟨k0, k1, k2, k3⟩) ∧
    decode [0x31, ss, bb, 0x01, k0, k1, k2, k3] = .ok (.cardReadi ss bb .b ⟨k0, k1, k2, k3⟩)) ∧
  (∀ ss bb oo k0 k1 k2 k3 dd : Byte,
    decode [0x40, ss, bb, oo, 0x00, k0, k1, k2, k3, dd] = .ok (.cardWrite ss bb oo .a ⟨k0, k1, k2, k3⟩ dd) ∧
    decode [0x40, ss, bb, oo, 0x01, k0, k1, k2, k3, dd] = .ok (.cardWrite ss bb oo .b ⟨k0, k1, k2, k3⟩ dd)) ∧
  (∀ ss bb oo dd : Byte, decode [0x41, ss, bb, oo, dd] = .ok (.cardWriteo ss bb oo dd)) ∧
  (∀ vk m0 m1 m2 m3 : Byte,
    decode [0x50, 0x00, vk, m0, m1, m2, m3] = .ok (.valInit 0x00 vk ⟨m0, m1, m2, m3⟩) ∧
    decode [0x50, 0x01, vk, m0, m1, m2, m3] = .ok (.valInit 0x01 vk ⟨m0, m1, m2, m3⟩)) ∧
  decode [0x51] = .ok .valCheck ∧
  decode [0x12, 0x10, 0x12, 0x23, 0x66] = .ok (.crcCalc [0x10, 0x12, 0x23, 0x66]) ∧
  decode [0x20, 0xF4, 0x0B, 0x01, 0x02, 0x03, 0x04, 0x05, 0x06, 0x07, 0x08, 0xA0, 0xA0, 0xA0, 0xA0, 0xB0, 0xB0, 0xB0, 0xB0,
      0xA1, 0xA1, 0xA1, 0xA1, 0xB1, 0xB1, 0xB1, 0xB1, 0xA6, 0x00] =
    .ok (.cardInit 0xF4 0x0B ⟨0x01, 0x02, 0x03, 0x04⟩ ⟨0x05, 0x06, 0x07, 0x08⟩ ⟨0xA0, 0xA0, 0xA0, 0xA0⟩ ⟨0xB0, 0xB0, 0xB0, 0xB0⟩
      ⟨0xA1, 0xA1, 0xA1, 0xA1⟩ ⟨0xB1, 0xB1, 0xB1, 0xB1⟩ 0xA6 0x00) ∧
  decode [0x30, 0x00, 0x01, 0x00, 0x00, 0x00, 0x00, 0x00] = .ok (.cardRead 0 1 .a ⟨0, 0, 0, 0⟩) ∧
  decode [0x31, 0x00, 0x00, 0x01, 0xDE, 0xAD, 0xC0, 0xDE] = .ok (.cardReadi 0 0 .b ⟨0xDE, 0xAD, 0xC0, 0xDE⟩) ∧
  decode [0x31, 0x01, 0x03, 0x01, 0xA0, 0xA1, 0xA2, 0xFF] = .ok (.cardReadi 1 3 .b ⟨0xA0, 0xA1, 0xA2, 0xFF⟩) ∧
  decode [0x40, 0x00, 0x02, 0x03, 0x00, 0x00, 0x00, 0x00, 0x00, 0xC3] = .ok (.cardWrite 0 2 3 .a ⟨0, 0, 0, 0⟩ 0xC3) ∧
  decode [0x41, 0x00, 0x02, 0x08, 0x50] = .ok (.cardWriteo 0 2 8 0x50) ∧
  decode [0x50, 0x01, 0x49, 0x02, 0x61, 0xC8, 0x36] = .ok (.valInit 0x01 0x49 ⟨0x02, 0x61, 0xC8, 0x36⟩)

/-- A frame whose first byte is none of the eleven opcodes is answered `E0` on either port, and nothing else happens (R72, R153). -/
def Obligations.ReservedOpcodeAnswersErrOpcode : Prop :=
  ∀ (s : State) (src : Port) (first : Byte) (body : Bytes) (rest : List Event),
    s.pending = .frame src (first :: body) :: rest →
    first ∉ ([0x10, 0x11, 0x12, 0x20, 0x21, 0x30, 0x31, 0x40, 0x41, 0x50, 0x51] : Bytes) →
    step s = .next ((s.accept src rest).answered [0xE0])

/-- The illegal shapes of R154, on the ports where the shape decides (R74): the empty frame, a wrong length, FLAGS bit 0,
VFLAGS bits 7 to 1, `KT` above 1. Each is answered `E1`, and nothing else happens (R73). -/
def Obligations.IllegalShapeAnswersErrFrame : Prop :=
  ∀ (s : State) (src : Port) (f : Bytes) (rest : List Event),
    s.pending = .frame src f :: rest →
    (src = .prv ∨ f = [] ∨ f.head? = some 0x30 ∨ f.head? = some 0x40) →
    (f = [] ∨
      (∃ (op : Byte) (n : Nat),
        (op, n) ∈ ([(0x10, 2), (0x11, 1), (0x20, 29), (0x21, 1), (0x30, 8), (0x31, 8), (0x40, 10), (0x41, 5), (0x50, 7), (0x51, 1)]
          : List (Byte × Nat)) ∧ f.head? = some op ∧ f.length ≠ n) ∨
      (∃ (flags : Byte) (body : Bytes), f = 0x20 :: flags :: body ∧ flags.getLsbD 0 = true) ∨
      (∃ (vflags : Byte) (body : Bytes), f = 0x50 :: vflags :: body ∧ 1 < vflags.toNat) ∨
      (∃ (op ss bb kt : Byte) (body : Bytes), (op = 0x30 ∨ op = 0x31) ∧ f = op :: ss :: bb :: kt :: body ∧ 1 < kt.toNat) ∨
      (∃ (ss bb oo kt : Byte) (body : Bytes), f = 0x40 :: ss :: bb :: oo :: kt :: body ∧ 1 < kt.toNat)) →
    step s = .next ((s.accept src rest).answered [0xE1])

/-- A privileged opcode on EXT is answered `E2` whatever follows it, and the command is not performed in any part; the
meaning of a privileged command run on EXT says the same (R155). -/
def Obligations.PrivilegedOpcodeOnExtAnswersErrPriv : Prop :=
  (∀ (s : State) (op : Byte) (body : Bytes) (rest : List Event),
    s.pending = .frame .ext (op :: body) :: rest →
    op ∈ ([0x10, 0x11, 0x12, 0x20, 0x21, 0x31, 0x41, 0x50, 0x51] : Bytes) →
    step s = .next ((s.accept .ext rest).answered [0xE2])) ∧
  (∀ (s : State) (i : Instr), s.port = .ext → i.opcode ≠ .cardRead → i.opcode ≠ .cardWrite →
    exec i s = .next (s.answered [0xE2]))

/-- A step on a frame that decodes runs the decoded command, in the state that has taken the frame. -/
def Obligations.StepRunsDecodedInstruction : Prop :=
  ∀ (s : State) (src : Port) (f : Bytes) (rest : List Event) (i : Instr),
    s.pending = .frame src f :: rest → decode f = .ok i →
    step s = exec i { s with port := src, pending := rest }

/-- With nothing pending a step changes nothing. The model's choice (log 11), after R35 and R172. -/
def Obligations.IdleStepChangesNothing : Prop :=
  ∀ s : State, s.pending = [] → step s = .next s

/-! ### Reset -/

/-- The values of R34's table. -/
def Obligations.ResetValues : Prop :=
  State.reset.crcDiv = 0 ∧ State.reset.cardInitd = false ∧ State.reset.cardDiv = 0 ∧
  (∀ s b i, Memory.byte State.reset.mem s b i = 0x00) ∧
  State.reset.b0w = false ∧ State.reset.cardType = false ∧ State.reset.valInitd = false ∧ State.reset.valEn = false ∧
  State.reset.valKt = ⟨⟨0, 0, 0, 0⟩, ⟨0, 0, 0, 0⟩, ⟨0, 0, 0, 0⟩, ⟨0, 0, 0, 0⟩⟩ ∧ State.reset.valId = ⟨0, 0, 0, 0⟩ ∧
  State.reset.valMfg = ⟨0, 0, 0, 0⟩ ∧ State.reset.valCrcKey = 0x00 ∧ State.reset.valSel = 0

/-- After a reset event every register and storage byte of R15 is zero (R170). What is outside the block (the events to come, the responses,
the random source, the parameters) stays: the model's choice (log 9). -/
def Obligations.ResetEventClearsTheBlock : Prop :=
  ∀ (s : State) (rest : List Event), s.pending = .reset :: rest →
    ∃ t, step s = .next t ∧
      t.crcDiv = 0 ∧ t.cardInitd = false ∧ t.cardDiv = 0 ∧ (∀ sec blk i, Memory.byte t.mem sec blk i = 0x00) ∧
      t.b0w = false ∧ t.cardType = false ∧ t.valInitd = false ∧ t.valEn = false ∧
      t.valKt = ⟨⟨0, 0, 0, 0⟩, ⟨0, 0, 0, 0⟩, ⟨0, 0, 0, 0⟩, ⟨0, 0, 0, 0⟩⟩ ∧ t.valId = ⟨0, 0, 0, 0⟩ ∧ t.valMfg = ⟨0, 0, 0, 0⟩ ∧
      t.valCrcKey = 0x00 ∧ t.valSel = 0 ∧
      t.pending = rest ∧ t.responses = s.responses ∧ t.draws = s.draws ∧ t.drawn = s.drawn ∧ t.unspecs = s.unspecs ∧
      t.params = s.params

/-! ### BitCRC -/

/-- CRC_INIT as R94 gives it: the divisor `0x100 | K` and an empty `OK`; a zero key `E3`; on EXT `E2`; a frame that is not two bytes
`E1`. Nothing else changes in any of the four. -/
def Obligations.CrcInitResult : Prop :=
  (∀ k : Byte, decode [0x10, k] = .ok (.crcInit k)) ∧
  (∀ (k : Byte) (s : State), s.port = .prv → k ≠ 0 →
    exec (.crcInit k) s = .next ({ s with crcDiv := 0x100#9 ||| k.setWidth 9 }.answered [0x00])) ∧
  (∀ s : State, s.port = .prv → exec (.crcInit 0) s = .next (s.answered [0xE3])) ∧
  (∀ (k : Byte) (s : State), s.port = .ext → exec (.crcInit k) s = .next (s.answered [0xE2])) ∧
  (∀ (s : State) (body : Bytes) (rest : List Event), s.pending = .frame .prv (0x10 :: body) :: rest → body.length ≠ 1 →
    step s = .next ((s.accept .prv rest).answered [0xE1]))

/-- CRC_GETDIV as R95 gives it: `01 K` for an instance that exists, `E4` otherwise, `E2` on EXT, `E1` for a longer frame. Nothing
else changes. -/
def Obligations.CrcGetdivResult : Prop :=
  decode [0x11] = .ok .crcGetdiv ∧
  (∀ s : State, s.port = .prv → s.crcDiv.getLsbD 8 = true →
    exec .crcGetdiv s = .next (s.answered [0x00, 0x01, s.crcDiv.setWidth 8])) ∧
  (∀ s : State, s.port = .prv → s.crcDiv.getLsbD 8 = false → exec .crcGetdiv s = .next (s.answered [0xE4])) ∧
  (∀ s : State, s.port = .ext → exec .crcGetdiv s = .next (s.answered [0xE2])) ∧
  (∀ (s : State) (body : Bytes) (rest : List Event), s.pending = .frame .prv (0x11 :: body) :: rest → body ≠ [] →
    step s = .next ((s.accept .prv rest).answered [0xE1]))

/-- CRC_CALC as R96 gives it: `crc8(CRC_DIV[7:0], data)`, for every length up to `MAX_CRC_LEN`; `E4` with no instance; `E1` above a
bounded `MAX_CRC_LEN`; `E2` on EXT; 0x00 for no data and for zero data. Nothing else changes. That the length is looked at before existence is read from R74's
stages (4) and (5) (log 12, DEDUCED); that `MAX_CRC_LEN` is a field of the state is the model's choice (log 6). -/
def Obligations.CrcCalcResult : Prop :=
  (∀ data : Bytes, decode (0x12 :: data) = .ok (.crcCalc data)) ∧
  (∀ (data : Bytes) (s : State), s.port = .prv → s.crcDiv.getLsbD 8 = true →
    (∀ limit, s.params.maxCrcLen = some limit → data.length ≤ limit) →
    exec (.crcCalc data) s = .next (s.answered [0x00, crc8 (s.crcDiv.setWidth 8) data])) ∧
  (∀ (data : Bytes) (s : State), s.port = .prv → s.crcDiv.getLsbD 8 = false →
    (∀ limit, s.params.maxCrcLen = some limit → data.length ≤ limit) →
    exec (.crcCalc data) s = .next (s.answered [0xE4])) ∧
  (∀ (data : Bytes) (s : State) (limit : Nat), s.port = .prv → s.params.maxCrcLen = some limit → limit < data.length →
    exec (.crcCalc data) s = .next (s.answered [0xE1])) ∧
  (∀ (data : Bytes) (s : State), s.port = .ext → exec (.crcCalc data) s = .next (s.answered [0xE2])) ∧
  (∀ (k : Byte) (n : Nat), k ≠ 0 → crc8 k (List.replicate n 0x00) = 0x00)

/-- The serial register form equals the long division (R90). -/
def Obligations.SerialFormEqualsLongDivision : Prop :=
  ∀ (k : Byte) (data : Bytes), k ≠ 0 → crc8 k data = serialCrc k data

/-- A bit sequence as a polynomial over GF(2), its first bit the coefficient of the highest power (R91). -/
noncomputable def Sys2Proof.Machine.bitsPolynomial : List Bool → Polynomial (ZMod 2)
  | [] => 0
  | b :: bits => (if b then Polynomial.X ^ bits.length else 0) + Sys2Proof.Machine.bitsPolynomial bits

/-- `crc8(K, data)` is `M(x) * x^8 mod G(x)` (R91). -/
def Obligations.CrcIsPolynomialRemainder : Prop :=
  ∀ (k : Byte) (data : Bytes), k ≠ 0 →
    (bitsPolynomial (messageBits data) * Polynomial.X ^ 8) %ₘ bitsPolynomial (true :: byteBits k) =
      bitsPolynomial (byteBits (crc8 k data))

/-- The consequences (a) to (f) of R92. -/
def Obligations.CrcAlgebra : Prop :=
  (∀ k : Byte, k ≠ 0 →
    crc8 k [] = 0x00 ∧
    (∀ d : Bytes, (∀ b ∈ d, b = 0x00) → crc8 k d = 0x00) ∧
    (∀ d : Bytes, crc8 k (0x00 :: d) = crc8 k d) ∧
    (∀ d1 d2 : Bytes, d1.length = d2.length → crc8 k (List.zipWith (· ^^^ ·) d1 d2) = crc8 k d1 ^^^ crc8 k d2) ∧
    (∀ d : Bytes, crc8 k (d ++ [crc8 k d]) = 0x00) ∧
    (∀ d p : Bytes, crc8 k (d ++ [crc8 k d] ++ p) = crc8 k p)) ∧
  (∀ v : Byte, crc8 0x01 [v] = v)

/-- R92(g): under an odd key two inputs that differ in exactly one byte have different checksums; under the even key 0x80 they
need not. -/
def Obligations.OddKeySeesEveryOneByteChange : Prop :=
  (∀ (k : Byte) (front back : Bytes) (v w : Byte), k.getLsbD 0 = true → v ≠ w →
    crc8 k (front ++ v :: back) ≠ crc8 k (front ++ w :: back)) ∧
  crc8 0x80 [0x00, 0x00] = 0x00 ∧ crc8 0x80 [0x03, 0x00] = 0x00

/-- The key policy of R93: 64 of the 256 byte values satisfy it, and the values R93 names fall as it says. -/
def Obligations.KeyPolicyCounts : Prop :=
  ((List.range 256).filter (fun n => keyPolicyOk (BitVec.ofNat 8 n))).length = 64 ∧
  keyPolicyOk 0x49 = true ∧ keyPolicyOk 0x0B = true ∧ keyPolicyOk 0x07 = true ∧ keyPolicyOk 0x03 = false ∧ keyPolicyOk 0x80 = false

/-! ### CARD_INIT, CARD_CHECK and the chain -/

/-- CARD_INIT with a non-zero key on PRV completes: the divisor (R106), the payload bytes from `PAYLOAD_INIT` (R106), the stored key copy (R108), the access
bytes (R111), valid checksums (R112), `B0W` and `CARD_INITD` and an empty `OK` (R113). BitCRC, the validator and the rest stay.
That `PAYLOAD_INIT` is a field of the state is the model's choice (log 6). -/
def Obligations.CardInitBuildsACard : Prop :=
  ∀ (flags crcKey : Byte) (id mfg s0ka s0kb s1ka s1kb : Quad) (ac0 ac1 : Byte) (s : State),
    s.port = .prv → crcKey ≠ 0 →
    ∃ t, exec (.cardInit flags crcKey id mfg s0ka s0kb s1ka s1kb ac0 ac1) s = .next t ∧
      t.cardDiv = 0x100#9 ||| crcKey.setWidth 9 ∧
      (∀ (sec : Fin 2) (blk : Fin 4) (i : Fin 9), blk ≠ 3 → ¬(sec = 0 ∧ blk = 0) → i ≠ 8 →
        Memory.byte t.mem sec blk i = Memory.byte s.params.payloadInit sec blk i) ∧
      Memory.byte t.mem 0 0 4 = crcKey ∧
      Memory.byte t.mem 0 3 4 = (if flags.getLsbD 4 then ac0 else 0xFF) ∧
      Memory.byte t.mem 1 3 4 = (if flags.getLsbD 4 then ac1 else 0xFF) ∧
      (∀ (sec : Fin 2) (blk : Fin 4), blk ≠ 3 → ¬(sec = 0 ∧ blk = 0) →
        Memory.byte t.mem sec blk 8 = chainVal t.cardDiv t.mem sec blk) ∧
      t.b0w = flags.getLsbD 2 ∧ t.cardInitd = true ∧ t.responses = s.responses ++ [[0x00]] ∧
      t.crcDiv = s.crcDiv ∧ t.valInitd = s.valInitd ∧ t.valEn = s.valEn ∧ t.valKt = s.valKt ∧ t.valId = s.valId ∧
      t.valMfg = s.valMfg ∧ t.valCrcKey = s.valCrcKey ∧ t.valSel = s.valSel ∧ t.port = s.port ∧ t.pending = s.pending ∧
      t.params = s.params

/-- The ID of a new card: supplied with `ID_V`, else the first four values drawn (R107).
The form of the random source is the model's (log 2, 3). -/
def Obligations.CardInitIdentity : Prop :=
  ∀ (flags crcKey : Byte) (id mfg s0ka s0kb s1ka s1kb : Quad) (ac0 ac1 : Byte) (s : State),
    s.port = .prv → crcKey ≠ 0 →
    ∃ t, exec (.cardInit flags crcKey id mfg s0ka s0kb s1ka s1kb ac0 ac1) s = .next t ∧
      Memory.quad t.mem 0 0 0 1 2 3 = (if flags.getLsbD 7 then id else s.sourceQuad 0)

/-- Type and manufacturing data of a new card: supplied with `MFG_V`, else drawn after the ID, the type first (R109).
The form of the random source is the model's (log 2, 3). -/
def Obligations.CardInitManufacturing : Prop :=
  ∀ (flags crcKey : Byte) (id mfg s0ka s0kb s1ka s1kb : Quad) (ac0 ac1 : Byte) (s : State),
    s.port = .prv → crcKey ≠ 0 →
    ∃ t, exec (.cardInit flags crcKey id mfg s0ka s0kb s1ka s1kb ac0 ac1) s = .next t ∧
      (flags.getLsbD 6 = true →
        t.cardType = flags.getLsbD 1 ∧ Memory.quad t.mem 0 0 5 6 7 8 = mfg) ∧
      (flags.getLsbD 6 = false →
        t.cardType = decide (s.source (if flags.getLsbD 7 then 0 else 4) % 2 = 1) ∧
        Memory.quad t.mem 0 0 5 6 7 8 = s.sourceQuad (if flags.getLsbD 7 then 1 else 5))

/-- The keys of a new card, tested in R110's order: unspecified with `KDF`, each byte a free value of its own; supplied with `KEYS_V`;
else drawn after what R107 and R109 draw. The free values are counted once, and only with `KDF`.
The form of the free bytes and of the source is the model's (log 2, 3, 5). -/
def Obligations.CardInitKeys : Prop :=
  ∀ (flags crcKey : Byte) (id mfg s0ka s0kb s1ka s1kb : Quad) (ac0 ac1 : Byte) (s : State),
    s.port = .prv → crcKey ≠ 0 →
    ∃ t, exec (.cardInit flags crcKey id mfg s0ka s0kb s1ka s1kb ac0 ac1) s = .next t ∧
      (flags.getLsbD 3 = true →
        Memory.key t.mem 0 .a = freeQuad s.unspecs ∧ Memory.key t.mem 0 .b = freeQuad (s.unspecs + 4) ∧
        Memory.key t.mem 1 .a = freeQuad (s.unspecs + 8) ∧ Memory.key t.mem 1 .b = freeQuad (s.unspecs + 12) ∧
        t.unspecs = s.unspecs + 16) ∧
      (flags.getLsbD 3 = false → t.unspecs = s.unspecs) ∧
      (flags.getLsbD 3 = false → flags.getLsbD 5 = true →
        Memory.key t.mem 0 .a = s0ka ∧ Memory.key t.mem 0 .b = s0kb ∧ Memory.key t.mem 1 .a = s1ka ∧
        Memory.key t.mem 1 .b = s1kb) ∧
      (flags.getLsbD 3 = false → flags.getLsbD 5 = false →
        let k := (if flags.getLsbD 7 then 0 else 4) + (if flags.getLsbD 6 then 0 else 5)
        Memory.key t.mem 0 .a = s.sourceQuad k ∧ Memory.key t.mem 0 .b = s.sourceQuad (k + 4) ∧
        Memory.key t.mem 1 .a = s.sourceQuad (k + 8) ∧ Memory.key t.mem 1 .b = s.sourceQuad (k + 12))

/-- The draws of CARD_INIT: 4 without `ID_V`, 5 without `MFG_V`, 16 without `KDF` and `KEYS_V`; at most 25 (R114).
The form of the random source is the model's (log 2, 3). -/
def Obligations.CardInitDrawCount : Prop :=
  ∀ (flags crcKey : Byte) (id mfg s0ka s0kb s1ka s1kb : Quad) (ac0 ac1 : Byte) (s : State),
    s.port = .prv → crcKey ≠ 0 →
    ∃ t, exec (.cardInit flags crcKey id mfg s0ka s0kb s1ka s1kb ac0 ac1) s = .next t ∧
      let n := (if flags.getLsbD 7 then 0 else 4) + (if flags.getLsbD 6 then 0 else 5) +
        (if flags.getLsbD 3 || flags.getLsbD 5 then 0 else 16)
      t.draws = s.draws.drop n ∧ t.drawn = s.drawn + (n - s.draws.length) ∧ n ≤ 25

/-- The outcome of CARD_INIT does not depend on a field whose valid bit is 0, on `TYPE` without `MFG_V`, nor on the keys and `KEYS_V`
with `KDF` (R70, R115). -/
def Obligations.CardInitIgnoresInvalidFields : Prop :=
  ∀ (flags flags' crcKey : Byte) (id id' mfg mfg' s0ka s0ka' s0kb s0kb' s1ka s1ka' s1kb s1kb' : Quad) (ac0 ac0' ac1 ac1' : Byte)
    (s : State),
    (∀ n, n ≠ 1 → n ≠ 5 → flags.getLsbD n = flags'.getLsbD n) →
    (flags.getLsbD 6 = true → flags.getLsbD 1 = flags'.getLsbD 1) →
    (flags.getLsbD 3 = false → flags.getLsbD 5 = flags'.getLsbD 5) →
    (flags.getLsbD 7 = true → id = id') →
    (flags.getLsbD 6 = true → mfg = mfg') →
    (flags.getLsbD 3 = false → flags.getLsbD 5 = true → s0ka = s0ka' ∧ s0kb = s0kb' ∧ s1ka = s1ka' ∧ s1kb = s1kb') →
    (flags.getLsbD 4 = true → ac0 = ac0' ∧ ac1 = ac1') →
    exec (.cardInit flags crcKey id mfg s0ka s0kb s1ka s1kb ac0 ac1) s =
      exec (.cardInit flags' crcKey id' mfg' s0ka' s0kb' s1ka' s1kb' ac0' ac1') s

/-- Straight after every accepted CARD_INIT, CARD_CHECK answers `true` (R118). -/
def Obligations.FreshCardPassesItsCheck : Prop :=
  ∀ (flags crcKey : Byte) (id mfg s0ka s0kb s1ka s1kb : Quad) (ac0 ac1 : Byte) (s : State),
    s.port = .prv → crcKey ≠ 0 →
    ∃ t, exec (.cardInit flags crcKey id mfg s0ka s0kb s1ka s1kb ac0 ac1) s = .next t ∧
      exec .cardCheck t = .next (t.answered [0x00, 0x01])

/-- CARD_CHECK as R116 gives it: `01` exactly when the five stored checksums equal the recomputed ones, each over the bytes R100 lists and under
`CARD_DIV[7:0]`; `E4` with no card; `E2` on EXT; `E1` for a longer frame. Nothing else changes. -/
def Obligations.CardCheckResult : Prop :=
  decode [0x21] = .ok .cardCheck ∧
  (∀ s : State, s.port = .prv → s.cardInitd = true →
    ∃ ok : Bool, exec .cardCheck s = .next (s.answered [0x00, if ok then 0x01 else 0x00]) ∧
      (ok = true ↔
        let k : Byte := s.cardDiv.setWidth 8
        let blk := Memory.block s.mem
        Memory.byte s.mem 0 1 8 = crc8 k (blk 0 0 ++ (blk 0 1).take 8) ∧
        Memory.byte s.mem 0 2 8 = crc8 k (blk 0 0 ++ blk 0 1 ++ (blk 0 2).take 8) ∧
        Memory.byte s.mem 1 0 8 = crc8 k ((blk 1 0).take 8) ∧
        Memory.byte s.mem 1 1 8 = crc8 k (blk 1 0 ++ (blk 1 1).take 8) ∧
        Memory.byte s.mem 1 2 8 = crc8 k (blk 1 0 ++ blk 1 1 ++ (blk 1 2).take 8))) ∧
  (∀ s : State, s.port = .prv → s.cardInitd = false → exec .cardCheck s = .next (s.answered [0xE4])) ∧
  (∀ s : State, s.port = .ext → exec .cardCheck s = .next (s.answered [0xE2])) ∧
  (∀ (s : State) (body : Bytes) (rest : List Event), s.pending = .frame .prv (0x21 :: body) :: rest → body ≠ [] →
    step s = .next ((s.accept .prv rest).answered [0xE1]))

/-- R117: a block's checksum depends on its own payload alone where its predecessor's stored checksum is correct, so the whole chain is valid
exactly when each sector-1 block, and sector 0's second, checks over its own payload. -/
def Obligations.ChainReducesToOwnPayload : Prop :=
  ∀ (d : Divisor) (m : Memory), (d.setWidth 8 : Byte) ≠ 0 →
    let k : Byte := d.setWidth 8
    let blk := Memory.block m
    (∀ (sec : Fin 2) (j j' : Fin 4), j'.val = j.val + 1 → j' ≠ 3 → ¬(sec = 0 ∧ j = 0) →
      Memory.byte m sec j 8 = chainVal d m sec j → chainVal d m sec j' = crc8 k ((blk sec j').take 8)) ∧
    (chainOk d m = true ↔
      Memory.byte m 0 1 8 = crc8 k (blk 0 0 ++ (blk 0 1).take 8) ∧ Memory.byte m 0 2 8 = crc8 k ((blk 0 2).take 8) ∧
      Memory.byte m 1 0 8 = crc8 k ((blk 1 0).take 8) ∧ Memory.byte m 1 1 8 = crc8 k ((blk 1 1).take 8) ∧
      Memory.byte m 1 2 8 = crc8 k ((blk 1 2).take 8))

/-- R119, first half: from a valid chain under an odd key, changing one of bytes 0 to 7 of a protected block, or any byte of the identity
block, makes the chain invalid. -/
def Obligations.OddKeyChainIsSensitive : Prop :=
  ∀ (d : Divisor) (m : Memory) (sec : Fin 2) (blk : Fin 4) (i : Fin 9) (v : Byte),
    d.getLsbD 0 = true → chainOk d m = true → blk ≠ 3 → ((sec = 0 ∧ blk = 0) ∨ i ≠ 8) → v ≠ Memory.byte m sec blk i →
    chainOk d (Memory.write m (addr sec blk i) v) = false

/-- R119, second half: after one byte of a valid chain has changed, recomputing the first checksum at or after it in its sector makes the
chain valid again. -/
def Obligations.OneRecomputedChecksumRepairs : Prop :=
  ∀ (d : Divisor) (m : Memory) (sec : Fin 2) (blk : Fin 4) (i : Fin 9) (v : Byte),
    (d.setWidth 8 : Byte) ≠ 0 → chainOk d m = true → blk ≠ 3 →
    let m1 := Memory.write m (addr sec blk i) v
    let j : Fin 4 := if sec = 0 ∧ blk = 0 then 1 else blk
    chainOk d (Memory.write m1 (addr sec j 8) (chainVal d m1 sec j)) = true

/-! ### Authorisation -/

/-- `AUTH` with the flag bits of R30's table and the key bytes of R42 written out (R48 to R52). -/
def Obligations.AuthorisationConditions : Prop :=
  ∀ (s : State) (op : AccessOp) (ss bb : Byte) (kt : KeyType) (key : Quad) (sec : Fin 2) (blk : Fin 4),
    let ac := Memory.byte s.mem sec 3 4
    let dataBit := match op, kt with | .read, .a => 7 | .write, .a => 6 | .read, .b => 5 | .write, .b => 4
    let trailerBit := match op, kt with | .read, .a => 3 | .write, .a => 2 | .read, .b => 1 | .write, .b => 0
    let k := fun i : Fin 9 => Memory.byte s.mem sec 3 i
    (s.auth op ss bb kt key = some (sec, blk) ↔
      ss.toNat = sec.val ∧ bb.toNat = blk.val ∧
      (blk ≠ 3 → ac.getLsbD dataBit = true) ∧
      (blk = 3 → ac.getLsbD trailerBit = true ∧ (s.params.trailerNeedsDataFlag = true → ac.getLsbD dataBit = true)) ∧
      key = (match kt with | .a => ⟨k 0, k 1, k 2, k 3⟩ | .b => ⟨k 5, k 6, k 7, k 8⟩))

/-- R128, with one flag for a trailer: clearing the one relevant bit makes CARD_READ and CARD_WRITE answer `"10"` for all keys; with the bit set, and
`B0W` for a write to the identity block, the right key succeeds: the write answers `"04"`, the read is authorised. -/
def Obligations.OneFlagGatesAnAccess : Prop :=
  ∀ (s : State) (ss bb oo dd : Byte) (kt : KeyType) (sec : Fin 2) (blk : Fin 4),
    s.cardInitd = true → s.params.trailerNeedsDataFlag = false → ss.toNat = sec.val → bb.toNat = blk.val →
    let ac := Memory.byte s.mem sec 3 4
    let readBit := (if blk = 3 then 3 else 7) - (match kt with | .a => 0 | .b => 2)
    let writeBit := (if blk = 3 then 2 else 6) - (match kt with | .a => 0 | .b => 2)
    (ac.getLsbD readBit = false → ∀ key, exec (.cardRead ss bb kt key) s = .next (s.answered [0x00, 0x31, 0x30])) ∧
    (ac.getLsbD writeBit = false → ∀ key, exec (.cardWrite ss bb oo kt key dd) s = .next (s.answered [0x00, 0x31, 0x30])) ∧
    (ac.getLsbD readBit = true → s.auth .read ss bb kt (Memory.key s.mem sec kt) = some (sec, blk)) ∧
    (ac.getLsbD writeBit = true → oo.toNat ≤ 7 → (sec = 0 → blk = 0 → s.b0w = true) →
      ∃ t, exec (.cardWrite ss bb oo kt (Memory.key s.mem sec kt) dd) s = .next t ∧
        t.responses = s.responses ++ [[0x00, 0x30, 0x34]])

/-! ### Reads -/

/-- A read that is not authorised: CARD_READ answers `"10"`, CARD_READI an empty `OK`, and nothing else happens, no draw among it
(R120, R124, R158). -/
def Obligations.DeniedReadsChangeNothing : Prop :=
  ∀ (s : State) (ss bb : Byte) (kt : KeyType) (key : Quad),
    s.cardInitd = true → (1 < ss.toNat ∨ 3 < bb.toNat ∨ s.auth .read ss bb kt key = none) →
    exec (.cardRead ss bb kt key) s = .next (s.answered [0x00, 0x31, 0x30]) ∧
    (s.port = .prv → exec (.cardReadi ss bb kt key) s = .next (s.answered [0x00]))

/-- An authorised trailer read gives the access byte twice, never a key, and draws nothing (R120, R124, U2). -/
def Obligations.TrailerReadGivesAccessByteTwice : Prop :=
  ∀ (s : State) (ss bb : Byte) (kt : KeyType) (key : Quad) (sec : Fin 2),
    s.cardInitd = true → s.auth .read ss bb kt key = some (sec, 3) →
    let a := Memory.byte s.mem sec 3 4
    exec (.cardRead ss bb kt key) s = .next (s.answered (0x00 :: (hex2 a ++ [0x20] ++ hex2 a))) ∧
    (s.port = .prv → exec (.cardReadi ss bb kt key) s = .next (s.answered [0x00, a, a]))

/-- An authorised CARD_READI of a data block answers the nine stored bytes and changes nothing (R124). -/
def Obligations.AuthoritativeReadGivesStoredBytes : Prop :=
  ∀ (s : State) (ss bb : Byte) (kt : KeyType) (key : Quad) (sec : Fin 2) (blk : Fin 4),
    s.port = .prv → s.cardInitd = true → s.auth .read ss bb kt key = some (sec, blk) → blk ≠ 3 →
    let r := Memory.byte s.mem sec blk
    exec (.cardReadi ss bb kt key) s = .next (s.answered [0x00, r 0, r 1, r 2, r 3, r 4, r 5, r 6, r 7, r 8])

/-- An authorised CARD_READ of a data block: for draws `0 p q` for each flip, then a non-zero `c`, it answers the eight stored bytes with the bits
`(p, q)` flipped in turn, then the exclusive-or of the nine stored bytes, consumes exactly those draws and changes nothing else (R120 to R123).
Listed draws are the model's form of the source (log 2). -/
def Obligations.NoisyReadAppliesTheDrawnFlips : Prop :=
  ∀ (s : State) (ss bb : Byte) (kt : KeyType) (key : Quad) (sec : Fin 2) (blk : Fin 4) (flips : List (Fin 8 × Fin 8)) (c : Nat)
    (rest : List Nat),
    s.cardInitd = true → s.auth .read ss bb kt key = some (sec, blk) → blk ≠ 3 →
    s.draws = flips.flatMap (fun pq => [0, pq.1.val, pq.2.val]) ++ c :: rest → (c = 1 ∨ c = 2) →
    let r := Memory.byte s.mem sec blk
    let buf := flips.foldl (fun (b : Bytes) (pq : Fin 8 × Fin 8) => b.modify pq.1.val (fun x => x ^^^ ((1 : Byte) <<< pq.2.val)))
      [r 0, r 1, r 2, r 3, r 4, r 5, r 6, r 7]
    let par := r 0 ^^^ r 1 ^^^ r 2 ^^^ r 3 ^^^ r 4 ^^^ r 5 ^^^ r 6 ^^^ r 7 ^^^ r 8
    exec (.cardRead ss bb kt key) s = .next ({ s with draws := rest }.answered (0x00 :: hexText (buf ++ [par])))

/-- Whatever eight bytes one names, some finite draws make an authorised CARD_READ of a data block answer them, with the true parity (R121, U3).
Listed draws are the model's form of the source (log 2). -/
def Obligations.NoisyReadReachesEveryValue : Prop :=
  ∀ (s : State) (ss bb : Byte) (kt : KeyType) (key : Quad) (sec : Fin 2) (blk : Fin 4) (buf : Bytes),
    s.cardInitd = true → s.auth .read ss bb kt key = some (sec, blk) → blk ≠ 3 → buf.length = 8 →
    let r := Memory.byte s.mem sec blk
    ∃ draws : List Nat, exec (.cardRead ss bb kt key) { s with draws := draws } =
      .next ({ s with draws := [] }.answered (0x00 :: hexText (buf ++
        [r 0 ^^^ r 1 ^^^ r 2 ^^^ r 3 ^^^ r 4 ^^^ r 5 ^^^ r 6 ^^^ r 7 ^^^ r 8])))

/-- A flipped bit differs from the stored one exactly when it was flipped an odd number of times; the same bit flipped twice is restored (R121). -/
def Obligations.FlipsActByParity : Prop :=
  ∀ (buf : Bytes) (flips : List (Fin 8 × Fin 8)) (p q : Fin 8), (h : buf.length = 8) →
    let out := flips.foldl (fun (b : Bytes) (pq : Fin 8 × Fin 8) => flipBit b pq.1.val pq.2.val) buf
    ∃ h' : out.length = 8,
      (out[p.val]'(by omega)).getLsbD q.val =
        ((buf[p.val]'(by omega)).getLsbD q.val ^^ decide ((flips.count (p, q)) % 2 = 1))

/-- An authorised CARD_READ of a data block whose listed draws do not end the corruption loop: they flip bits and run out, before an iteration, after its `c` or
after its `p`. The missing positions are values of the free source, the rest of the loop is the source's own free choice, and a source that never ends it is the
machine's one stop. The model's form of U3 and R175 (log 2, 3, 4). -/
def Obligations.NoisyReadOnAFreeSource : Prop :=
  ∀ (s : State) (ss bb : Byte) (kt : KeyType) (key : Quad) (sec : Fin 2) (blk : Fin 4) (flips : List (Fin 8 × Fin 8)),
    s.cardInitd = true → s.auth .read ss bb kt key = some (sec, blk) → blk ≠ 3 →
    let r := Memory.byte s.mem sec blk
    let par := r 0 ^^^ r 1 ^^^ r 2 ^^^ r 3 ^^^ r 4 ^^^ r 5 ^^^ r 6 ^^^ r 7 ^^^ r 8
    let flip := fun (b : Bytes) (p q : Nat) => b.modify (p % 8) (fun x => x ^^^ ((1 : Byte) <<< (q % 8)))
    let listed := flips.flatMap (fun pq => [0, pq.1.val, pq.2.val])
    let buf := flips.foldl (fun (b : Bytes) (pq : Fin 8 × Fin 8) => flip b pq.1.val pq.2.val) [r 0, r 1, r 2, r 3, r 4, r 5, r 6, r 7]
    let free := fun (k : Nat) (b : Bytes) =>
      match Config.freeFlips k with
      | none => Host.Outcome.fault Fault.readNeverEnds
      | some more =>
        .next ({ s with draws := [], drawn := k + 3 * more.length + 1 }.answered
          (0x00 :: hexText (more.foldl (fun (b : Bytes) (pq : Nat × Nat) => flip b pq.1 pq.2) b ++ [par])))
    (s.draws = listed → exec (.cardRead ss bb kt key) s = free s.drawn buf) ∧
    (s.draws = listed ++ [0] → exec (.cardRead ss bb kt key) s =
      free (s.drawn + 2) (flip buf (Config.freeDraw s.drawn) (Config.freeDraw (s.drawn + 1)))) ∧
    (∀ p : Fin 8, s.draws = listed ++ [0, p.val] → exec (.cardRead ss bb kt key) s =
      free (s.drawn + 1) (flip buf p.val (Config.freeDraw s.drawn)))

/-- With no flip the eight octets are the stored bytes, and their exclusive-or with the parity octet is the stored byte 8 (R129, C2).
Listed draws are the model's form of the source (log 2). -/
def Obligations.ParityRecoversByteEight : Prop :=
  ∀ (s : State) (ss bb : Byte) (kt : KeyType) (key : Quad) (sec : Fin 2) (blk : Fin 4) (c : Nat) (rest : List Nat),
    s.cardInitd = true → s.auth .read ss bb kt key = some (sec, blk) → blk ≠ 3 → s.draws = c :: rest → (c = 1 ∨ c = 2) →
    ∃ par : Byte,
      exec (.cardRead ss bb kt key) s =
        .next ({ s with draws := rest }.answered (0x00 :: hexText ((Memory.block s.mem sec blk).take 8 ++ [par]))) ∧
      ((Memory.block s.mem sec blk).take 8).foldl (· ^^^ ·) par = Memory.byte s.mem sec blk 8

/-- A CARD_READ and a CARD_READI with the same operands are both denied or both granted (R129). -/
def Obligations.ReadsAreGrantedTogether : Prop :=
  ∀ (s : State) (ss bb : Byte) (kt : KeyType) (key : Quad), s.port = .prv → s.cardInitd = true →
    (exec (.cardRead ss bb kt key) s = .next (s.answered [0x00, 0x31, 0x30]) ↔
      exec (.cardReadi ss bb kt key) s = .next (s.answered [0x00]))

/-- Hex text as R76 gives it: an octet is the code of the digit of its bits 7 to 4, then the code of the digit of its bits 3 to 0, 0x30 to 0x39 for 0 to 9 and 0x61 to
0x66 for a to f; 0x20 stands between neighbours, none before the first and none after the last. So `n > 0` octets make `3n - 1` characters, and the text tells the octets. -/
def Obligations.HexTextTellsTheOctets : Prop :=
  (∀ b : Byte,
    let code := fun n : Nat => if n < 10 then BitVec.ofNat 8 (0x30 + n) else BitVec.ofNat 8 (0x61 + (n - 10))
    hex2 b = [code (b.toNat / 16), code (b.toNat % 16)]) ∧
  (∀ a : Bytes, hexText a = ((a.map hex2).intersperse [0x20]).flatten) ∧
  hexText [0xBC, 0x69] = [0x62, 0x63, 0x20, 0x36, 0x39] ∧
  (∀ a : Bytes, a ≠ [] → (hexText a).length = 3 * a.length - 1) ∧ (∀ a b : Bytes, hexText a = hexText b → a = b)

/-- No response of a read is computed from a stored key byte: two states whose storage differs only in key bytes, and that authorise the access alike,
are answered alike (R54, R120, R124). -/
def Obligations.ReadsLeakNoKeyByte : Prop :=
  ∀ (s : State) (m : Memory) (ss bb : Byte) (kt : KeyType) (key : Quad),
    (∀ (sec : Fin 2) (blk : Fin 4) (i : Fin 9), (blk = 3 → i = 4) → Memory.byte m sec blk i = Memory.byte s.mem sec blk i) →
    ({ s with mem := m } : State).auth .read ss bb kt key = s.auth .read ss bb kt key →
    (∀ t, exec (.cardRead ss bb kt key) s = .next t → exec (.cardRead ss bb kt key) { s with mem := m } = .next { t with mem := m }) ∧
    (∀ t, exec (.cardReadi ss bb kt key) s = .next t → exec (.cardReadi ss bb kt key) { s with mem := m } = .next { t with mem := m })

/-! ### Writes -/

/-- An authorised CARD_WRITE at offset 0 to 7, the identity block not locked: the one target byte becomes `DD`, every other byte reads as before, the answer is
`"04"`, and nothing else changes (R125). -/
def Obligations.AuthorisedWriteStoresOneByte : Prop :=
  ∀ (s : State) (ss bb oo : Byte) (kt : KeyType) (key : Quad) (dd : Byte) (sec : Fin 2) (blk : Fin 4) (off : Fin 9),
    s.cardInitd = true → s.auth .write ss bb kt key = some (sec, blk) → oo.toNat = off.val → off.val ≤ 7 →
    (sec = 0 → blk = 0 → s.b0w = true) →
    ∃ t, exec (.cardWrite ss bb oo kt key dd) s = .next t ∧
      Memory.byte t.mem sec blk off = dd ∧
      (∀ a, a ≠ addr sec blk off → Memory.read t.mem a = Memory.read s.mem a) ∧
      t = { s.answered [0x00, 0x30, 0x34] with mem := t.mem }

/-- CARD_WRITE answers `"10"` and changes nothing for each cause of R159: a coordinate out of range, an offset above 7, no authorisation, the locked identity
block (R125, R53, R158). -/
def Obligations.DeniedWriteChangesNothing : Prop :=
  ∀ (s : State) (ss bb oo : Byte) (kt : KeyType) (key : Quad) (dd : Byte),
    s.cardInitd = true →
    (1 < ss.toNat ∨ 3 < bb.toNat ∨ 7 < oo.toNat ∨ s.auth .write ss bb kt key = none ∨ (ss = 0 ∧ bb = 0 ∧ s.b0w = false)) →
    exec (.cardWrite ss bb oo kt key dd) s = .next (s.answered [0x00, 0x31, 0x30])

/-- CARD_WRITEO inside the shape, offset 8 included, with no key, flag or lock: the one target byte becomes `DD`, every other byte reads as before, the answer is
an empty `OK`, and nothing else changes (R126). -/
def Obligations.OverrideWriteStoresOneByte : Prop :=
  ∀ (s : State) (ss bb oo dd : Byte) (sec : Fin 2) (blk : Fin 4) (off : Fin 9),
    s.port = .prv → s.cardInitd = true → ss.toNat = sec.val → bb.toNat = blk.val → oo.toNat = off.val →
    ∃ t, exec (.cardWriteo ss bb oo dd) s = .next t ∧
      Memory.byte t.mem sec blk off = dd ∧
      (∀ a, a ≠ addr sec blk off → Memory.read t.mem a = Memory.read s.mem a) ∧
      t = { s.answered [0x00] with mem := t.mem }

/-- CARD_WRITEO outside the shape is `E5` with no effect, and nothing else is ever answered `E5`: no other command, and no frame but that of a CARD_WRITEO outside
the shape, on PRV and with a card. Out of range CARD_READ answers `"10"`, CARD_READI empty and CARD_WRITE, its offset included, `"10"` (R157). -/
def Obligations.OnlyOverrideWriteAnswersErrAddr : Prop :=
  (∀ (s : State) (ss bb oo dd : Byte), s.port = .prv → s.cardInitd = true → (1 < ss.toNat ∨ 3 < bb.toNat ∨ 8 < oo.toNat) →
    exec (.cardWriteo ss bb oo dd) s = .next (s.answered [0xE5])) ∧
  (∀ (i : Instr) (s t : State) (payload : Bytes), i.opcode ≠ .cardWriteo → exec i s = .next t →
    t.responses ≠ s.responses ++ [0xE5 :: payload]) ∧
  (∀ (s t : State) (src : Port) (f : Bytes) (rest : List Event) (payload : Bytes), s.pending = .frame src f :: rest →
    step s = .next t → t.responses = s.responses ++ [0xE5 :: payload] →
    src = .prv ∧ s.cardInitd = true ∧ ∃ ss bb oo dd : Byte, decode f = .ok (.cardWriteo ss bb oo dd) ∧
      (1 < ss.toNat ∨ 3 < bb.toNat ∨ 8 < oo.toNat)) ∧
  (∀ (s : State) (ss bb : Byte) (kt : KeyType) (key : Quad), s.cardInitd = true → (1 < ss.toNat ∨ 3 < bb.toNat) →
    exec (.cardRead ss bb kt key) s = .next (s.answered [0x00, 0x31, 0x30]) ∧
    (s.port = .prv → exec (.cardReadi ss bb kt key) s = .next (s.answered [0x00]))) ∧
  (∀ (s : State) (ss bb oo dd : Byte) (kt : KeyType) (key : Quad), s.cardInitd = true →
    (1 < ss.toNat ∨ 3 < bb.toNat ∨ 7 < oo.toNat) →
    exec (.cardWrite ss bb oo kt key dd) s = .next (s.answered [0x00, 0x31, 0x30]))

/-! ### Hard failures of commands -/

/-- Each command whose unit does not exist is `E4` with no effect (R156). -/
def Obligations.UninitialisedUnitAnswersErrNotInit : Prop :=
  (∀ s : State, s.port = .prv → s.crcDiv.getLsbD 8 = false →
    exec .crcGetdiv s = .next (s.answered [0xE4]) ∧
    ∀ data, (∀ limit, s.params.maxCrcLen = some limit → data.length ≤ limit) → exec (.crcCalc data) s = .next (s.answered [0xE4])) ∧
  (∀ (s : State) (ss bb oo dd : Byte) (kt : KeyType) (key : Quad), s.cardInitd = false →
    exec (.cardRead ss bb kt key) s = .next (s.answered [0xE4]) ∧
    exec (.cardWrite ss bb oo kt key dd) s = .next (s.answered [0xE4]) ∧
    (s.port = .prv →
      exec .cardCheck s = .next (s.answered [0xE4]) ∧
      exec (.cardReadi ss bb kt key) s = .next (s.answered [0xE4]) ∧
      exec (.cardWriteo ss bb oo dd) s = .next (s.answered [0xE4]))) ∧
  (∀ s : State, s.port = .prv → (s.valInitd = false ∨ (s.valEn = true ∧ s.cardInitd = false)) →
    exec .valCheck s = .next (s.answered [0xE4]))

/-- A zero checksum key is `E3` at CRC_INIT and CARD_INIT before anything is written or drawn; VAL_INIT never answers `E3` (R152). -/
def Obligations.ZeroKeyAnswersErrInvalidKey : Prop :=
  (∀ s : State, s.port = .prv → exec (.crcInit 0x00) s = .next (s.answered [0xE3])) ∧
  (∀ (s : State) (flags : Byte) (id mfg s0ka s0kb s1ka s1kb : Quad) (ac0 ac1 : Byte), s.port = .prv →
    exec (.cardInit flags 0x00 id mfg s0ka s0kb s1ka s1kb ac0 ac1) s = .next (s.answered [0xE3])) ∧
  (∀ (s t : State) (vflags vk : Byte) (vmfg : Quad) (payload : Bytes), exec (.valInit vflags vk vmfg) s = .next t →
    t.responses ≠ s.responses ++ [0xE3 :: payload])

/-! ### The validator -/

/-- VAL_INIT on PRV completes for every operand, a zero `VK` too: the table, the ID and, only when enabled, the index are drawn in that order; the operands are
stored; disabled, `VAL_SEL` is 0; nothing of BitCRC or the card changes (R140, R141).
The form of the random source is the model's (log 2, 3). -/
def Obligations.ValInitBuildsAValidator : Prop :=
  ∀ (vflags vk : Byte) (vmfg : Quad) (s : State), s.port = .prv →
    ∃ t, exec (.valInit vflags vk vmfg) s = .next t ∧
      t.valKt = s.sourceKeys 0 ∧ t.valId = s.sourceQuad 16 ∧ t.valMfg = vmfg ∧ t.valCrcKey = vk ∧ t.valEn = vflags.getLsbD 0 ∧
      t.valSel = (if vflags.getLsbD 0 then BitVec.ofNat 2 (s.source 20 % 4) else 0) ∧ t.valInitd = true ∧
      t.responses = s.responses ++ [[0x00]] ∧
      (let n := if vflags.getLsbD 0 then 21 else 20
       t.draws = s.draws.drop n ∧ t.drawn = s.drawn + (n - s.draws.length)) ∧
      t.crcDiv = s.crcDiv ∧ t.cardInitd = s.cardInitd ∧ t.cardDiv = s.cardDiv ∧ t.mem = s.mem ∧ t.b0w = s.b0w ∧
      t.cardType = s.cardType ∧ t.unspecs = s.unspecs ∧ t.port = s.port ∧ t.pending = s.pending ∧ t.params = s.params

/-- VAL_CHECK: disabled it answers `true`, card or not; enabled with a card it answers `true` exactly when the five conditions of R144 hold. It changes nothing else
(R143 to R145). -/
def Obligations.ValCheckCertifies : Prop :=
  (∀ s : State, s.port = .prv → s.valInitd = true → s.valEn = false → exec .valCheck s = .next (s.answered [0x00, 0x01])) ∧
  (∀ s : State, s.port = .prv → s.valInitd = true → s.valEn = true → s.cardInitd = true →
    ∃ ok : Bool, exec .valCheck s = .next (s.answered [0x00, if ok then 0x01 else 0x00]) ∧
      (ok = true ↔
        (let kt := if s.valSel.getLsbD 0 then KeyType.b else KeyType.a
         let key := match s.valSel.getLsbD 1, s.valSel.getLsbD 0 with
           | false, false => s.valKt.s0a | false, true => s.valKt.s0b | true, false => s.valKt.s1a | true, true => s.valKt.s1b
         s.auth .read 0 0 kt key = some (0, 0)) ∧
        Memory.byte s.mem 0 0 4 = s.valCrcKey ∧
        Memory.quad s.mem 0 0 0 1 2 3 = s.valId ∧
        Memory.quad s.mem 0 0 5 6 7 8 = s.valMfg ∧
        chainOk s.cardDiv s.mem = true))

/-! ### The whole machine -/

/-- The invariant of the block holds at reset (R33, R34). The canonical form of storage in it is the model's choice (log 8). -/
def Obligations.ResetKeepsTheInvariant : Prop := State.reset.Inv

/-- Every step keeps the invariant of the block: canonical storage, legal divisors, a card's key non-zero, absent units at their reset values (R33, R34).
The canonical form is the model's (log 8). -/
def Obligations.EveryStepKeepsTheInvariant : Prop :=
  ∀ s t : State, s.Inv → step s = .next t → t.Inv

/-- No EXT frame changes offset 8 of any block, the identity block while `B0W` is 0, or any register (R178, R165). -/
def Obligations.ExtCannotReachProtectedState : Prop :=
  ∀ (s t : State) (f : Bytes) (rest : List Event), s.pending = .frame .ext f :: rest → step s = .next t →
    (∀ sec blk, Memory.byte t.mem sec blk 8 = Memory.byte s.mem sec blk 8) ∧
    (s.b0w = false → ∀ i, Memory.byte t.mem 0 0 i = Memory.byte s.mem 0 0 i) ∧
    t.crcDiv = s.crcDiv ∧ t.cardInitd = s.cardInitd ∧ t.cardDiv = s.cardDiv ∧ t.b0w = s.b0w ∧ t.cardType = s.cardType ∧
    t.valInitd = s.valInitd ∧ t.valEn = s.valEn ∧ t.valKt = s.valKt ∧ t.valId = s.valId ∧ t.valMfg = s.valMfg ∧
    t.valCrcKey = s.valCrcKey ∧ t.valSel = s.valSel

/-- A response with a non-zero status is the status byte alone, and the command that gave it had no other effect: nothing written, nothing drawn (R162). -/
def Obligations.HardFailuresAreClean : Prop :=
  ∀ (s t : State) (src : Port) (f : Bytes) (rest : List Event) (status : Byte) (payload : Bytes),
    s.pending = .frame src f :: rest → step s = .next t → t.responses = s.responses ++ [status :: payload] → status ≠ 0x00 →
    payload = [] ∧ t = { s with port := src, pending := rest, responses := t.responses }

/-- Every frame that is answered is answered with exactly one response frame, whose status is one of the table's seven (R61 to R63). -/
def Obligations.EveryFrameGetsOneResponse : Prop :=
  ∀ (s t : State) (src : Port) (f : Bytes) (rest : List Event), s.pending = .frame src f :: rest → step s = .next t →
    ∃ (status : Byte) (payload : Bytes), t.responses = s.responses ++ [status :: payload] ∧
      status ∈ ([0x00, 0xE0, 0xE1, 0xE2, 0xE3, 0xE4, 0xE5] : Bytes)

/-- Each register is written only by the command R15's table names, and storage only by CARD_INIT, CARD_WRITE and CARD_WRITEO (R33(d)).
Only CARD_INIT, CARD_READ and VAL_INIT draw (R59), and only CARD_INIT uses unspecified bytes (R110). The form of the source and of those bytes, and the port, the
events to come and the parameters as fields, are the model's choice (log 1, 2, 3, 5, 6, 10). -/
def Obligations.StateIsWrittenOnlyByItsCommands : Prop :=
  ∀ (i : Instr) (s t : State), exec i s = .next t →
    (i.opcode ≠ .crcInit → t.crcDiv = s.crcDiv) ∧
    (i.opcode ≠ .cardInit → t.cardInitd = s.cardInitd ∧ t.cardDiv = s.cardDiv ∧ t.b0w = s.b0w ∧ t.cardType = s.cardType) ∧
    (i.opcode ≠ .cardInit → i.opcode ≠ .cardWrite → i.opcode ≠ .cardWriteo → t.mem = s.mem) ∧
    (i.opcode ≠ .valInit → t.valInitd = s.valInitd ∧ t.valEn = s.valEn ∧ t.valKt = s.valKt ∧ t.valId = s.valId ∧
      t.valMfg = s.valMfg ∧ t.valCrcKey = s.valCrcKey ∧ t.valSel = s.valSel) ∧
    (i.opcode ≠ .cardInit → i.opcode ≠ .cardRead → i.opcode ≠ .valInit → t.draws = s.draws ∧ t.drawn = s.drawn) ∧
    (i.opcode ≠ .cardInit → t.unspecs = s.unspecs) ∧
    t.port = s.port ∧ t.pending = s.pending ∧ t.params = s.params

/-- Every step answers a next state, or it is an authorised CARD_READ of a data block that takes all its listed draws without an end of the corruption loop (whole
iterations of a zero `c`, then at most an unfinished one) and whose free source never ends it: then it is the fault `readNeverEnds`, and `Config.freeFlips` answers
`none` at the value of the source the loop has reached (R175, U3). The form of the source is the model's (log 2, 3, 4). -/
def Obligations.EveryStepCompletesUnlessAReadNeverEnds : Prop :=
  ∀ s : State,
    (∃ t, step s = .next t) ∨
    ∃ (src : Port) (f : Bytes) (rest : List Event) (ss bb : Byte) (kt : KeyType) (key : Quad) (sec : Fin 2) (blk : Fin 4)
      (turns : List (Nat × Nat × Nat)) (tail : List Nat),
      s.pending = .frame src f :: rest ∧ decode f = .ok (.cardRead ss bb kt key) ∧ s.cardInitd = true ∧
      s.auth .read ss bb kt key = some (sec, blk) ∧ blk ≠ 3 ∧ step s = .fault .readNeverEnds ∧
      s.draws = turns.flatMap (fun d => [d.1, d.2.1, d.2.2]) ++ tail ∧ (∀ d ∈ turns, d.1 % 3 = 0) ∧
      ((tail = [] ∧ Config.freeFlips s.drawn = none) ∨
        (∃ c, tail = [c] ∧ c % 3 = 0 ∧ Config.freeFlips (s.drawn + 2) = none) ∨
        (∃ c p, tail = [c, p] ∧ c % 3 = 0 ∧ Config.freeFlips (s.drawn + 1) = none))

/-- Storages in canonical form that read alike are equal. The model's choice of form (log 8). -/
def Obligations.CanonicalStorageIsUnique : Prop :=
  ∀ m m' : Memory, Memory.wf m → Memory.wf m' → (∀ sec blk i, Memory.byte m sec blk i = Memory.byte m' sec blk i) → m = m'
end

