-- ==== Sys2Proof/Laws/Memory.lean ====
section
/-! SUPPORT. Storage: a read after a write, the canonical form, and the bytes a list of writes leaves. -/

namespace Sys2Proof.Machine

/-! ### Addresses -/

theorem addr_lt (s : Fin 2) (b : Fin 4) (i : Fin 9) : addr s b i < memBytes := by
  unfold addr memBytes; omega

/-- The flat address names each byte once (R36). -/
theorem addr_inj {s s' : Fin 2} {b b' : Fin 4} {i i' : Fin 9} :
    addr s b i = addr s' b' i' ↔ s = s' ∧ b = b' ∧ i = i' := by
  unfold addr
  constructor
  · intro h
    refine ⟨Fin.ext ?_, Fin.ext ?_, Fin.ext ?_⟩ <;> omega
  · rintro ⟨rfl, rfl, rfl⟩; rfl

/-! ### Read after write -/

@[simp] theorem Memory.read_nil (a : Nat) : Memory.read [] a = unlisted := rfl

theorem Memory.read_erase (m : Memory) (a x : Nat) :
    Memory.read (Memory.erase m a) x = if x = a then unlisted else Memory.read m x := by
  induction m with
  | nil => simp [Memory.erase]
  | cons c m ih =>
    simp only [Memory.erase] at ih
    by_cases hc : c.1 = a
    · simp only [Memory.erase, List.filter_cons, hc, ne_eq, not_true_eq_false, decide_false, Bool.false_eq_true, if_false, ih,
        Memory.read]
      split
      · rfl
      · rw [if_neg (by omega)]
    · simp only [Memory.erase, List.filter_cons, hc, ne_eq, not_false_eq_true, decide_true, if_true, Memory.read, ih]
      split
      · rw [if_neg (by omega)]
      · rfl

theorem Memory.read_insert (m : Memory) (a x : Nat) (v : Byte) (h : ∀ c ∈ m, c.1 ≠ a) :
    Memory.read (Memory.insert m a v) x = if x = a then v else Memory.read m x := by
  induction m with
  | nil =>
    by_cases hx : x = a
    · simp [Memory.insert, Memory.read, hx]
    · simp [Memory.insert, Memory.read, hx, Ne.symm hx]
  | cons c m ih =>
    have hc : c.1 ≠ a := h c (by simp)
    have ih := ih (fun d hd => h d (by simp [hd]))
    simp only [Memory.insert]
    split
    · simp only [Memory.read]
      by_cases hx : x = a
      · simp [hx]
      · rw [if_neg (Ne.symm hx), if_neg hx]
    · simp only [Memory.read, ih]
      split
      · rw [if_neg (by omega)]
      · rfl

theorem Memory.erase_ne (m : Memory) (a : Nat) : ∀ c ∈ Memory.erase m a, c.1 ≠ a := by
  intro c hc
  simpa using (List.mem_filter.mp hc).2

/-- A read after a write gives the value written, and every other byte is left alone. -/
theorem Memory.read_write (m : Memory) (a x : Nat) (v : Byte) :
    Memory.read (Memory.write m a v) x = if x = a then v else Memory.read m x := by
  unfold Memory.write
  split
  · rename_i hv
    rw [Memory.read_erase, hv]
  · rw [Memory.read_insert _ _ _ _ (Memory.erase_ne m a), Memory.read_erase]
    split <;> rfl

@[simp] theorem Memory.read_write_same (m : Memory) (a : Nat) (v : Byte) : Memory.read (Memory.write m a v) a = v := by
  simp [Memory.read_write]

theorem Memory.read_write_other (m : Memory) {a x : Nat} (v : Byte) (h : x ≠ a) :
    Memory.read (Memory.write m a v) x = Memory.read m x := by
  simp [Memory.read_write, h]

/-- `MEM[s][b][i]` after one byte has been overwritten. -/
theorem Memory.byte_write (m : Memory) (s s' : Fin 2) (b b' : Fin 4) (i i' : Fin 9) (v : Byte) :
    Memory.byte (Memory.write m (addr s' b' i') v) s b i =
      if s = s' ∧ b = b' ∧ i = i' then v else Memory.byte m s b i := by
  unfold Memory.byte
  rw [Memory.read_write]
  simp only [addr_inj]

/-- The bytes a `MemWrite` leaves (R12(b)). -/
theorem Memory.read_writeBytes (vs : Bytes) : ∀ (m : Memory) (a x : Nat),
    Memory.read (Memory.writeBytes m a vs) x = if h : a ≤ x ∧ x < a + vs.length then vs[x - a]'(by omega) else Memory.read m x := by
  induction vs with
  | nil => intro m a x; simp [Memory.writeBytes]
  | cons v vs ih =>
    intro m a x
    simp only [Memory.writeBytes, ih, Memory.read_write, List.length_cons]
    by_cases hx : x = a
    · subst hx
      rw [dif_neg (by omega), dif_pos (by omega)]
      simp
    · by_cases h : a + 1 ≤ x ∧ x < a + 1 + vs.length
      · rw [dif_pos h, dif_pos (by omega)]
        rw [List.getElem_cons, dif_neg (by omega)]
        congr 1
      · rw [dif_neg h, dif_neg (by omega), if_neg hx]

/-! ### The canonical form -/

theorem Memory.wf_nil : Memory.wf [] := by simp [Memory.wf]

theorem Memory.erase_wf {m : Memory} (a : Nat) (h : Memory.wf m) : Memory.wf (Memory.erase m a) :=
  ⟨h.1.filter _, fun c hc => h.2 c (List.mem_filter.mp hc).1⟩

theorem Memory.mem_insert {m : Memory} {a : Nat} {v : Byte} {c : Host.Cell} (h : c ∈ Memory.insert m a v) : c = (a, v) ∨ c ∈ m := by
  induction m with
  | nil => simp [Memory.insert] at h; exact .inl h
  | cons d m ih =>
    simp only [Memory.insert] at h
    split at h
    · simpa using h
    · rcases List.mem_cons.mp h with h | h
      · exact .inr (by simp [h])
      · rcases ih h with h | h
        · exact .inl h
        · exact .inr (by simp [h])

theorem Memory.insert_pairwise {m : Memory} {a : Nat} {v : Byte} (h : m.Pairwise (fun c d => c.1 < d.1))
    (hne : ∀ c ∈ m, c.1 ≠ a) : (Memory.insert m a v).Pairwise (fun c d => c.1 < d.1) := by
  induction m with
  | nil => simp [Memory.insert]
  | cons c m ih =>
    rw [List.pairwise_cons] at h
    simp only [Memory.insert]
    split
    · rename_i hlt
      rw [List.pairwise_cons, List.pairwise_cons]
      refine ⟨fun d hd => ?_, h.1, h.2⟩
      rcases List.mem_cons.mp hd with rfl | hd
      · exact hlt
      · exact Nat.lt_trans hlt (h.1 d hd)
    · rename_i hlt
      rw [List.pairwise_cons]
      refine ⟨fun d hd => ?_, ih h.2 (fun d hd => hne d (by simp [hd]))⟩
      rcases Memory.mem_insert hd with rfl | hd
      · have := hne c (by simp)
        show c.1 < a
        omega
      · exact h.1 d hd

/-- A write inside the storage keeps the canonical form. -/
theorem Memory.write_wf {m : Memory} {a : Nat} (v : Byte) (h : Memory.wf m) (ha : a < memBytes) :
    Memory.wf (Memory.write m a v) := by
  unfold Memory.write
  split
  · exact Memory.erase_wf a h
  · rename_i hv
    have he := Memory.erase_wf a h
    refine ⟨Memory.insert_pairwise he.1 (Memory.erase_ne m a), fun c hc => ?_⟩
    rcases Memory.mem_insert hc with rfl | hc
    · exact ⟨ha, hv⟩
    · exact he.2 c hc

theorem Memory.writeBytes_wf (vs : Bytes) : ∀ {m : Memory} {a : Nat}, Memory.wf m → a + vs.length ≤ memBytes →
    Memory.wf (Memory.writeBytes m a vs) := by
  induction vs with
  | nil => intro m a h _; exact h
  | cons v vs ih =>
    intro m a h ha
    simp only [List.length_cons] at ha
    exact ih (Memory.write_wf v h (by omega)) (by omega)

/-! ### Blocks -/

@[simp] theorem Memory.block_length (m : Memory) (s : Fin 2) (b : Fin 4) : (Memory.block m s b).length = 9 := by
  simp [Memory.block]

theorem Memory.block_getElem (m : Memory) (s : Fin 2) (b : Fin 4) (i : Fin 9) :
    (Memory.block m s b)[i.val]'(by simp) = Memory.byte m s b i := by
  simp [Memory.block]

/-- A block is determined by its nine bytes. -/
theorem Memory.block_congr {m m' : Memory} {s s' : Fin 2} {b b' : Fin 4} (h : ∀ i, Memory.byte m s b i = Memory.byte m' s' b' i) :
    Memory.block m s b = Memory.block m' s' b' := by
  simp [Memory.block, h]

end Sys2Proof.Machine
end

