-- ==== Sys2Proof/Laws/Operands.lean ====
section
/-! SUPPORT. What the operand checks accept: coordinates inside the storage shape, and the two steps of authorisation. -/

namespace Sys2Proof.Machine

theorem sectorOf_eq_some {ss : Byte} {s : Fin 2} : sectorOf ss = some s ↔ ss.toNat = s.val := by
  unfold sectorOf
  split
  · simp [Fin.ext_iff]
  · simp; omega

theorem sectorOf_eq_none {ss : Byte} : sectorOf ss = none ↔ 1 < ss.toNat := by
  unfold sectorOf; split <;> simp <;> omega

theorem blockOf_eq_some {bb : Byte} {b : Fin 4} : blockOf bb = some b ↔ bb.toNat = b.val := by
  unfold blockOf
  split
  · simp [Fin.ext_iff]
  · simp; omega

theorem blockOf_eq_none {bb : Byte} : blockOf bb = none ↔ 3 < bb.toNat := by
  unfold blockOf; split <;> simp <;> omega

theorem offsetOf_eq_some {oo : Byte} {i : Fin 9} : offsetOf oo = some i ↔ oo.toNat = i.val := by
  unfold offsetOf
  split
  · simp [Fin.ext_iff]
  · simp; omega

theorem offsetOf_eq_none {oo : Byte} : offsetOf oo = none ↔ 8 < oo.toNat := by
  unfold offsetOf; split <;> simp <;> omega

theorem writeOffsetOf_eq_some {oo : Byte} {i : Fin 9} : writeOffsetOf oo = some i ↔ oo.toNat = i.val ∧ oo.toNat ≤ 7 := by
  unfold writeOffsetOf maxWriteOffset
  split
  · rw [offsetOf_eq_some]; simp_all
  · simp only [reduceCtorEq, false_iff]; omega

theorem writeOffsetOf_eq_none {oo : Byte} : writeOffsetOf oo = none ↔ 7 < oo.toNat := by
  unfold writeOffsetOf maxWriteOffset
  split
  · rw [offsetOf_eq_none]; omega
  · simp; omega

/-- `AUTH` answers the coordinates of the frame, when they are in range and the flag and the key pass. -/
theorem State.auth_eq_some {s : State} {op : AccessOp} {ss bb : Byte} {kt : KeyType} {key : Quad} {sec : Fin 2} {blk : Fin 4} :
    s.auth op ss bb kt key = some (sec, blk) ↔
      ss.toNat = sec.val ∧ bb.toNat = blk.val ∧ s.authorised op sec blk kt key = true := by
  unfold State.auth
  split
  · rename_i s' b' h1 h2
    rw [← sectorOf_eq_some, ← blockOf_eq_some, h1, h2]
    split
    · rename_i h
      simp only [Option.some.injEq, Prod.mk.injEq]
      constructor
      · rintro ⟨rfl, rfl⟩; exact ⟨rfl, rfl, h⟩
      · rintro ⟨rfl, rfl, _⟩; exact ⟨rfl, rfl⟩
    · rename_i h
      simp only [reduceCtorEq, false_iff, Option.some.injEq]
      rintro ⟨rfl, rfl, h'⟩
      exact h h'
  · rename_i h
    simp only [reduceCtorEq, false_iff]
    rintro ⟨h1, h2, _⟩
    exact h _ _ (sectorOf_eq_some.mpr h1) (blockOf_eq_some.mpr h2)

/-- An access out of range is not authorised (R48). -/
theorem State.auth_out_of_range {s : State} {op : AccessOp} {ss bb : Byte} {kt : KeyType} {key : Quad}
    (h : 1 < ss.toNat ∨ 3 < bb.toNat) : s.auth op ss bb kt key = none := by
  rw [Option.eq_none_iff_forall_ne_some]
  rintro ⟨sec, blk⟩ h'
  rw [State.auth_eq_some] at h'
  omega

/-- Authorisation looks at storage and the parameters only. -/
theorem State.auth_congr {s t : State} (hm : t.mem = s.mem) (hp : t.params = s.params) (op : AccessOp) (ss bb : Byte) (kt : KeyType)
    (key : Quad) : t.auth op ss bb kt key = s.auth op ss bb kt key := by
  simp [State.auth, State.authorised, hm, hp]

/-- The frame a malformed frame of an assigned opcode gets: privilege before shape (R74). -/
theorem State.illegalFrame_malformed (s : State) (op : Opcode) :
    s.illegalFrame (.malformed op) = if s.port = .ext ∧ op.external = false then .priv else .frame := rfl

end Sys2Proof.Machine
end

