-- ==== Sys2Proof/Laws/State.lean ====
section
/-! SUPPORT. One lemma per field per update of the state, true by rfl. -/

namespace Sys2Proof.Machine

/-! ### `State.respond` -/

@[simp] theorem State.respond_crcDiv (s : State) (status : Byte) (payload : Bytes) : (s.respond status payload).crcDiv = s.crcDiv := rfl
@[simp] theorem State.respond_cardInitd (s : State) (status : Byte) (payload : Bytes) : (s.respond status payload).cardInitd = s.cardInitd := rfl
@[simp] theorem State.respond_cardDiv (s : State) (status : Byte) (payload : Bytes) : (s.respond status payload).cardDiv = s.cardDiv := rfl
@[simp] theorem State.respond_mem (s : State) (status : Byte) (payload : Bytes) : (s.respond status payload).mem = s.mem := rfl
@[simp] theorem State.respond_b0w (s : State) (status : Byte) (payload : Bytes) : (s.respond status payload).b0w = s.b0w := rfl
@[simp] theorem State.respond_cardType (s : State) (status : Byte) (payload : Bytes) : (s.respond status payload).cardType = s.cardType := rfl
@[simp] theorem State.respond_valInitd (s : State) (status : Byte) (payload : Bytes) : (s.respond status payload).valInitd = s.valInitd := rfl
@[simp] theorem State.respond_valEn (s : State) (status : Byte) (payload : Bytes) : (s.respond status payload).valEn = s.valEn := rfl
@[simp] theorem State.respond_valKt (s : State) (status : Byte) (payload : Bytes) : (s.respond status payload).valKt = s.valKt := rfl
@[simp] theorem State.respond_valId (s : State) (status : Byte) (payload : Bytes) : (s.respond status payload).valId = s.valId := rfl
@[simp] theorem State.respond_valMfg (s : State) (status : Byte) (payload : Bytes) : (s.respond status payload).valMfg = s.valMfg := rfl
@[simp] theorem State.respond_valCrcKey (s : State) (status : Byte) (payload : Bytes) : (s.respond status payload).valCrcKey = s.valCrcKey := rfl
@[simp] theorem State.respond_valSel (s : State) (status : Byte) (payload : Bytes) : (s.respond status payload).valSel = s.valSel := rfl
@[simp] theorem State.respond_port (s : State) (status : Byte) (payload : Bytes) : (s.respond status payload).port = s.port := rfl
@[simp] theorem State.respond_pending (s : State) (status : Byte) (payload : Bytes) : (s.respond status payload).pending = s.pending := rfl
@[simp] theorem State.respond_responses (s : State) (status : Byte) (payload : Bytes) : (s.respond status payload).responses = s.responses ++ [status :: payload] := rfl
@[simp] theorem State.respond_draws (s : State) (status : Byte) (payload : Bytes) : (s.respond status payload).draws = s.draws := rfl
@[simp] theorem State.respond_drawn (s : State) (status : Byte) (payload : Bytes) : (s.respond status payload).drawn = s.drawn := rfl
@[simp] theorem State.respond_unspecs (s : State) (status : Byte) (payload : Bytes) : (s.respond status payload).unspecs = s.unspecs := rfl
@[simp] theorem State.respond_params (s : State) (status : Byte) (payload : Bytes) : (s.respond status payload).params = s.params := rfl

/-! ### `State.raise` -/

@[simp] theorem State.raise_crcDiv (s : State) (e : HardFailure) : (s.raise e).crcDiv = s.crcDiv := rfl
@[simp] theorem State.raise_cardInitd (s : State) (e : HardFailure) : (s.raise e).cardInitd = s.cardInitd := rfl
@[simp] theorem State.raise_cardDiv (s : State) (e : HardFailure) : (s.raise e).cardDiv = s.cardDiv := rfl
@[simp] theorem State.raise_mem (s : State) (e : HardFailure) : (s.raise e).mem = s.mem := rfl
@[simp] theorem State.raise_b0w (s : State) (e : HardFailure) : (s.raise e).b0w = s.b0w := rfl
@[simp] theorem State.raise_cardType (s : State) (e : HardFailure) : (s.raise e).cardType = s.cardType := rfl
@[simp] theorem State.raise_valInitd (s : State) (e : HardFailure) : (s.raise e).valInitd = s.valInitd := rfl
@[simp] theorem State.raise_valEn (s : State) (e : HardFailure) : (s.raise e).valEn = s.valEn := rfl
@[simp] theorem State.raise_valKt (s : State) (e : HardFailure) : (s.raise e).valKt = s.valKt := rfl
@[simp] theorem State.raise_valId (s : State) (e : HardFailure) : (s.raise e).valId = s.valId := rfl
@[simp] theorem State.raise_valMfg (s : State) (e : HardFailure) : (s.raise e).valMfg = s.valMfg := rfl
@[simp] theorem State.raise_valCrcKey (s : State) (e : HardFailure) : (s.raise e).valCrcKey = s.valCrcKey := rfl
@[simp] theorem State.raise_valSel (s : State) (e : HardFailure) : (s.raise e).valSel = s.valSel := rfl
@[simp] theorem State.raise_port (s : State) (e : HardFailure) : (s.raise e).port = s.port := rfl
@[simp] theorem State.raise_pending (s : State) (e : HardFailure) : (s.raise e).pending = s.pending := rfl
@[simp] theorem State.raise_responses (s : State) (e : HardFailure) : (s.raise e).responses = s.responses ++ [[e.code]] := rfl
@[simp] theorem State.raise_draws (s : State) (e : HardFailure) : (s.raise e).draws = s.draws := rfl
@[simp] theorem State.raise_drawn (s : State) (e : HardFailure) : (s.raise e).drawn = s.drawn := rfl
@[simp] theorem State.raise_unspecs (s : State) (e : HardFailure) : (s.raise e).unspecs = s.unspecs := rfl
@[simp] theorem State.raise_params (s : State) (e : HardFailure) : (s.raise e).params = s.params := rfl

/-! ### `State.answered` -/

@[simp] theorem State.answered_crcDiv (s : State) (frame : Bytes) : (s.answered frame).crcDiv = s.crcDiv := rfl
@[simp] theorem State.answered_cardInitd (s : State) (frame : Bytes) : (s.answered frame).cardInitd = s.cardInitd := rfl
@[simp] theorem State.answered_cardDiv (s : State) (frame : Bytes) : (s.answered frame).cardDiv = s.cardDiv := rfl
@[simp] theorem State.answered_mem (s : State) (frame : Bytes) : (s.answered frame).mem = s.mem := rfl
@[simp] theorem State.answered_b0w (s : State) (frame : Bytes) : (s.answered frame).b0w = s.b0w := rfl
@[simp] theorem State.answered_cardType (s : State) (frame : Bytes) : (s.answered frame).cardType = s.cardType := rfl
@[simp] theorem State.answered_valInitd (s : State) (frame : Bytes) : (s.answered frame).valInitd = s.valInitd := rfl
@[simp] theorem State.answered_valEn (s : State) (frame : Bytes) : (s.answered frame).valEn = s.valEn := rfl
@[simp] theorem State.answered_valKt (s : State) (frame : Bytes) : (s.answered frame).valKt = s.valKt := rfl
@[simp] theorem State.answered_valId (s : State) (frame : Bytes) : (s.answered frame).valId = s.valId := rfl
@[simp] theorem State.answered_valMfg (s : State) (frame : Bytes) : (s.answered frame).valMfg = s.valMfg := rfl
@[simp] theorem State.answered_valCrcKey (s : State) (frame : Bytes) : (s.answered frame).valCrcKey = s.valCrcKey := rfl
@[simp] theorem State.answered_valSel (s : State) (frame : Bytes) : (s.answered frame).valSel = s.valSel := rfl
@[simp] theorem State.answered_port (s : State) (frame : Bytes) : (s.answered frame).port = s.port := rfl
@[simp] theorem State.answered_pending (s : State) (frame : Bytes) : (s.answered frame).pending = s.pending := rfl
@[simp] theorem State.answered_responses (s : State) (frame : Bytes) : (s.answered frame).responses = s.responses ++ [frame] := rfl
@[simp] theorem State.answered_draws (s : State) (frame : Bytes) : (s.answered frame).draws = s.draws := rfl
@[simp] theorem State.answered_drawn (s : State) (frame : Bytes) : (s.answered frame).drawn = s.drawn := rfl
@[simp] theorem State.answered_unspecs (s : State) (frame : Bytes) : (s.answered frame).unspecs = s.unspecs := rfl
@[simp] theorem State.answered_params (s : State) (frame : Bytes) : (s.answered frame).params = s.params := rfl

/-! ### `State.storeByte` -/

@[simp] theorem State.storeByte_crcDiv (s : State) (sec : Fin 2) (blk : Fin 4) (off : Fin 9) (v : Byte) : (s.storeByte sec blk off v).crcDiv = s.crcDiv := rfl
@[simp] theorem State.storeByte_cardInitd (s : State) (sec : Fin 2) (blk : Fin 4) (off : Fin 9) (v : Byte) : (s.storeByte sec blk off v).cardInitd = s.cardInitd := rfl
@[simp] theorem State.storeByte_cardDiv (s : State) (sec : Fin 2) (blk : Fin 4) (off : Fin 9) (v : Byte) : (s.storeByte sec blk off v).cardDiv = s.cardDiv := rfl
@[simp] theorem State.storeByte_mem (s : State) (sec : Fin 2) (blk : Fin 4) (off : Fin 9) (v : Byte) : (s.storeByte sec blk off v).mem = Memory.write s.mem (addr sec blk off) v := rfl
@[simp] theorem State.storeByte_b0w (s : State) (sec : Fin 2) (blk : Fin 4) (off : Fin 9) (v : Byte) : (s.storeByte sec blk off v).b0w = s.b0w := rfl
@[simp] theorem State.storeByte_cardType (s : State) (sec : Fin 2) (blk : Fin 4) (off : Fin 9) (v : Byte) : (s.storeByte sec blk off v).cardType = s.cardType := rfl
@[simp] theorem State.storeByte_valInitd (s : State) (sec : Fin 2) (blk : Fin 4) (off : Fin 9) (v : Byte) : (s.storeByte sec blk off v).valInitd = s.valInitd := rfl
@[simp] theorem State.storeByte_valEn (s : State) (sec : Fin 2) (blk : Fin 4) (off : Fin 9) (v : Byte) : (s.storeByte sec blk off v).valEn = s.valEn := rfl
@[simp] theorem State.storeByte_valKt (s : State) (sec : Fin 2) (blk : Fin 4) (off : Fin 9) (v : Byte) : (s.storeByte sec blk off v).valKt = s.valKt := rfl
@[simp] theorem State.storeByte_valId (s : State) (sec : Fin 2) (blk : Fin 4) (off : Fin 9) (v : Byte) : (s.storeByte sec blk off v).valId = s.valId := rfl
@[simp] theorem State.storeByte_valMfg (s : State) (sec : Fin 2) (blk : Fin 4) (off : Fin 9) (v : Byte) : (s.storeByte sec blk off v).valMfg = s.valMfg := rfl
@[simp] theorem State.storeByte_valCrcKey (s : State) (sec : Fin 2) (blk : Fin 4) (off : Fin 9) (v : Byte) : (s.storeByte sec blk off v).valCrcKey = s.valCrcKey := rfl
@[simp] theorem State.storeByte_valSel (s : State) (sec : Fin 2) (blk : Fin 4) (off : Fin 9) (v : Byte) : (s.storeByte sec blk off v).valSel = s.valSel := rfl
@[simp] theorem State.storeByte_port (s : State) (sec : Fin 2) (blk : Fin 4) (off : Fin 9) (v : Byte) : (s.storeByte sec blk off v).port = s.port := rfl
@[simp] theorem State.storeByte_pending (s : State) (sec : Fin 2) (blk : Fin 4) (off : Fin 9) (v : Byte) : (s.storeByte sec blk off v).pending = s.pending := rfl
@[simp] theorem State.storeByte_responses (s : State) (sec : Fin 2) (blk : Fin 4) (off : Fin 9) (v : Byte) : (s.storeByte sec blk off v).responses = s.responses := rfl
@[simp] theorem State.storeByte_draws (s : State) (sec : Fin 2) (blk : Fin 4) (off : Fin 9) (v : Byte) : (s.storeByte sec blk off v).draws = s.draws := rfl
@[simp] theorem State.storeByte_drawn (s : State) (sec : Fin 2) (blk : Fin 4) (off : Fin 9) (v : Byte) : (s.storeByte sec blk off v).drawn = s.drawn := rfl
@[simp] theorem State.storeByte_unspecs (s : State) (sec : Fin 2) (blk : Fin 4) (off : Fin 9) (v : Byte) : (s.storeByte sec blk off v).unspecs = s.unspecs := rfl
@[simp] theorem State.storeByte_params (s : State) (sec : Fin 2) (blk : Fin 4) (off : Fin 9) (v : Byte) : (s.storeByte sec blk off v).params = s.params := rfl

/-! ### `State.accept` -/

@[simp] theorem State.accept_crcDiv (s : State) (src : Port) (rest : List Event) : (s.accept src rest).crcDiv = s.crcDiv := rfl
@[simp] theorem State.accept_cardInitd (s : State) (src : Port) (rest : List Event) : (s.accept src rest).cardInitd = s.cardInitd := rfl
@[simp] theorem State.accept_cardDiv (s : State) (src : Port) (rest : List Event) : (s.accept src rest).cardDiv = s.cardDiv := rfl
@[simp] theorem State.accept_mem (s : State) (src : Port) (rest : List Event) : (s.accept src rest).mem = s.mem := rfl
@[simp] theorem State.accept_b0w (s : State) (src : Port) (rest : List Event) : (s.accept src rest).b0w = s.b0w := rfl
@[simp] theorem State.accept_cardType (s : State) (src : Port) (rest : List Event) : (s.accept src rest).cardType = s.cardType := rfl
@[simp] theorem State.accept_valInitd (s : State) (src : Port) (rest : List Event) : (s.accept src rest).valInitd = s.valInitd := rfl
@[simp] theorem State.accept_valEn (s : State) (src : Port) (rest : List Event) : (s.accept src rest).valEn = s.valEn := rfl
@[simp] theorem State.accept_valKt (s : State) (src : Port) (rest : List Event) : (s.accept src rest).valKt = s.valKt := rfl
@[simp] theorem State.accept_valId (s : State) (src : Port) (rest : List Event) : (s.accept src rest).valId = s.valId := rfl
@[simp] theorem State.accept_valMfg (s : State) (src : Port) (rest : List Event) : (s.accept src rest).valMfg = s.valMfg := rfl
@[simp] theorem State.accept_valCrcKey (s : State) (src : Port) (rest : List Event) : (s.accept src rest).valCrcKey = s.valCrcKey := rfl
@[simp] theorem State.accept_valSel (s : State) (src : Port) (rest : List Event) : (s.accept src rest).valSel = s.valSel := rfl
@[simp] theorem State.accept_port (s : State) (src : Port) (rest : List Event) : (s.accept src rest).port = src := rfl
@[simp] theorem State.accept_pending (s : State) (src : Port) (rest : List Event) : (s.accept src rest).pending = rest := rfl
@[simp] theorem State.accept_responses (s : State) (src : Port) (rest : List Event) : (s.accept src rest).responses = s.responses := rfl
@[simp] theorem State.accept_draws (s : State) (src : Port) (rest : List Event) : (s.accept src rest).draws = s.draws := rfl
@[simp] theorem State.accept_drawn (s : State) (src : Port) (rest : List Event) : (s.accept src rest).drawn = s.drawn := rfl
@[simp] theorem State.accept_unspecs (s : State) (src : Port) (rest : List Event) : (s.accept src rest).unspecs = s.unspecs := rfl
@[simp] theorem State.accept_params (s : State) (src : Port) (rest : List Event) : (s.accept src rest).params = s.params := rfl

/-! ### `State.skipDraws` -/

@[simp] theorem State.skipDraws_crcDiv (s : State) (k : Nat) : (s.skipDraws k).crcDiv = s.crcDiv := rfl
@[simp] theorem State.skipDraws_cardInitd (s : State) (k : Nat) : (s.skipDraws k).cardInitd = s.cardInitd := rfl
@[simp] theorem State.skipDraws_cardDiv (s : State) (k : Nat) : (s.skipDraws k).cardDiv = s.cardDiv := rfl
@[simp] theorem State.skipDraws_mem (s : State) (k : Nat) : (s.skipDraws k).mem = s.mem := rfl
@[simp] theorem State.skipDraws_b0w (s : State) (k : Nat) : (s.skipDraws k).b0w = s.b0w := rfl
@[simp] theorem State.skipDraws_cardType (s : State) (k : Nat) : (s.skipDraws k).cardType = s.cardType := rfl
@[simp] theorem State.skipDraws_valInitd (s : State) (k : Nat) : (s.skipDraws k).valInitd = s.valInitd := rfl
@[simp] theorem State.skipDraws_valEn (s : State) (k : Nat) : (s.skipDraws k).valEn = s.valEn := rfl
@[simp] theorem State.skipDraws_valKt (s : State) (k : Nat) : (s.skipDraws k).valKt = s.valKt := rfl
@[simp] theorem State.skipDraws_valId (s : State) (k : Nat) : (s.skipDraws k).valId = s.valId := rfl
@[simp] theorem State.skipDraws_valMfg (s : State) (k : Nat) : (s.skipDraws k).valMfg = s.valMfg := rfl
@[simp] theorem State.skipDraws_valCrcKey (s : State) (k : Nat) : (s.skipDraws k).valCrcKey = s.valCrcKey := rfl
@[simp] theorem State.skipDraws_valSel (s : State) (k : Nat) : (s.skipDraws k).valSel = s.valSel := rfl
@[simp] theorem State.skipDraws_port (s : State) (k : Nat) : (s.skipDraws k).port = s.port := rfl
@[simp] theorem State.skipDraws_pending (s : State) (k : Nat) : (s.skipDraws k).pending = s.pending := rfl
@[simp] theorem State.skipDraws_responses (s : State) (k : Nat) : (s.skipDraws k).responses = s.responses := rfl
@[simp] theorem State.skipDraws_draws (s : State) (k : Nat) : (s.skipDraws k).draws = s.draws.drop k := rfl
@[simp] theorem State.skipDraws_drawn (s : State) (k : Nat) : (s.skipDraws k).drawn = s.drawn + (k - s.draws.length) := rfl
@[simp] theorem State.skipDraws_unspecs (s : State) (k : Nat) : (s.skipDraws k).unspecs = s.unspecs := rfl
@[simp] theorem State.skipDraws_params (s : State) (k : Nat) : (s.skipDraws k).params = s.params := rfl

/-! ### `State.applyReset` -/

@[simp] theorem State.applyReset_crcDiv (s : State) (rest : List Event) : (s.applyReset rest).crcDiv = State.reset.crcDiv := rfl
@[simp] theorem State.applyReset_cardInitd (s : State) (rest : List Event) : (s.applyReset rest).cardInitd = State.reset.cardInitd := rfl
@[simp] theorem State.applyReset_cardDiv (s : State) (rest : List Event) : (s.applyReset rest).cardDiv = State.reset.cardDiv := rfl
@[simp] theorem State.applyReset_mem (s : State) (rest : List Event) : (s.applyReset rest).mem = State.reset.mem := rfl
@[simp] theorem State.applyReset_b0w (s : State) (rest : List Event) : (s.applyReset rest).b0w = State.reset.b0w := rfl
@[simp] theorem State.applyReset_cardType (s : State) (rest : List Event) : (s.applyReset rest).cardType = State.reset.cardType := rfl
@[simp] theorem State.applyReset_valInitd (s : State) (rest : List Event) : (s.applyReset rest).valInitd = State.reset.valInitd := rfl
@[simp] theorem State.applyReset_valEn (s : State) (rest : List Event) : (s.applyReset rest).valEn = State.reset.valEn := rfl
@[simp] theorem State.applyReset_valKt (s : State) (rest : List Event) : (s.applyReset rest).valKt = State.reset.valKt := rfl
@[simp] theorem State.applyReset_valId (s : State) (rest : List Event) : (s.applyReset rest).valId = State.reset.valId := rfl
@[simp] theorem State.applyReset_valMfg (s : State) (rest : List Event) : (s.applyReset rest).valMfg = State.reset.valMfg := rfl
@[simp] theorem State.applyReset_valCrcKey (s : State) (rest : List Event) : (s.applyReset rest).valCrcKey = State.reset.valCrcKey := rfl
@[simp] theorem State.applyReset_valSel (s : State) (rest : List Event) : (s.applyReset rest).valSel = State.reset.valSel := rfl
@[simp] theorem State.applyReset_port (s : State) (rest : List Event) : (s.applyReset rest).port = State.reset.port := rfl
@[simp] theorem State.applyReset_pending (s : State) (rest : List Event) : (s.applyReset rest).pending = rest := rfl
@[simp] theorem State.applyReset_responses (s : State) (rest : List Event) : (s.applyReset rest).responses = s.responses := rfl
@[simp] theorem State.applyReset_draws (s : State) (rest : List Event) : (s.applyReset rest).draws = s.draws := rfl
@[simp] theorem State.applyReset_drawn (s : State) (rest : List Event) : (s.applyReset rest).drawn = s.drawn := rfl
@[simp] theorem State.applyReset_unspecs (s : State) (rest : List Event) : (s.applyReset rest).unspecs = s.unspecs := rfl
@[simp] theorem State.applyReset_params (s : State) (rest : List Event) : (s.applyReset rest).params = s.params := rfl

/-! ### The four ways a meaning ends -/

theorem State.answer_eq (s : State) (payload : Bytes) : s.answer payload = .next (s.answered (statusOk :: payload)) := rfl

theorem State.fail_eq (s : State) (e : HardFailure) : s.fail e = .next (s.answered [e.code]) := rfl

theorem State.rejectFrame_eq (s : State) (e : Illegal) : s.rejectFrame e = .next (s.answered [(s.illegalFrame e).code]) := rfl

theorem State.respond_eq (s : State) (status : Byte) (payload : Bytes) : s.respond status payload = s.answered (status :: payload) := rfl

/-! ### The checks that guard a meaning -/

@[simp] theorem State.privileged_prv (s : State) (h : s.port = .prv) (act : Result) : s.privileged act = act := by
  simp [State.privileged, h]

@[simp] theorem State.privileged_ext (s : State) (h : s.port = .ext) (act : Result) : s.privileged act = s.fail .priv := by
  simp [State.privileged, h]

@[simp] theorem State.needCard_true (s : State) (h : s.cardInitd = true) (act : Result) : s.needCard act = act := by
  simp [State.needCard, h]

@[simp] theorem State.needCard_false (s : State) (h : s.cardInitd = false) (act : Result) : s.needCard act = s.fail .notInit := by
  simp [State.needCard, h]

@[simp] theorem State.needCrc_true (s : State) (h : s.crcDiv.getLsbD 8 = true) (act : Result) : s.needCrc act = act := by
  simp [State.needCrc, h]

@[simp] theorem State.needCrc_false (s : State) (h : s.crcDiv.getLsbD 8 = false) (act : Result) :
    s.needCrc act = s.fail .notInit := by
  unfold State.needCrc; rw [h]; rfl

@[simp] theorem State.needValidator_true (s : State) (h : s.valInitd = true) (act : Result) : s.needValidator act = act := by
  simp [State.needValidator, h]

@[simp] theorem State.needValidator_false (s : State) (h : s.valInitd = false) (act : Result) :
    s.needValidator act = s.fail .notInit := by
  simp [State.needValidator, h]

/-- A guarded meaning that answers `next t` either ran or ended in the guard's hard failure. -/
theorem State.privileged_cases (s t : State) (act : Result) (h : s.privileged act = .next t) :
    (s.port = .prv ∧ act = .next t) ∨ (s.port = .ext ∧ t = s.answered [0xE2]) := by
  cases hp : s.port with
  | prv => rw [State.privileged_prv s hp] at h; exact .inl ⟨rfl, h⟩
  | ext =>
    rw [State.privileged_ext s hp, State.fail_eq] at h
    cases h; exact .inr ⟨rfl, rfl⟩

theorem State.needCard_cases (s t : State) (act : Result) (h : s.needCard act = .next t) :
    (s.cardInitd = true ∧ act = .next t) ∨ (s.cardInitd = false ∧ t = s.answered [0xE4]) := by
  cases hp : s.cardInitd with
  | true => rw [State.needCard_true s hp] at h; exact .inl ⟨rfl, h⟩
  | false =>
    rw [State.needCard_false s hp, State.fail_eq] at h
    cases h; exact .inr ⟨rfl, rfl⟩

theorem State.needCrc_cases (s t : State) (act : Result) (h : s.needCrc act = .next t) :
    (s.crcDiv.getLsbD 8 = true ∧ act = .next t) ∨ (s.crcDiv.getLsbD 8 = false ∧ t = s.answered [0xE4]) := by
  cases hp : s.crcDiv.getLsbD 8 with
  | true => rw [State.needCrc_true s hp] at h; exact .inl ⟨rfl, h⟩
  | false =>
    rw [State.needCrc_false s hp, State.fail_eq] at h
    cases h; exact .inr ⟨rfl, rfl⟩

theorem State.needValidator_cases (s t : State) (act : Result) (h : s.needValidator act = .next t) :
    (s.valInitd = true ∧ act = .next t) ∨ (s.valInitd = false ∧ t = s.answered [0xE4]) := by
  cases hp : s.valInitd with
  | true => rw [State.needValidator_true s hp] at h; exact .inl ⟨rfl, h⟩
  | false =>
    rw [State.needValidator_false s hp, State.fail_eq] at h
    cases h; exact .inr ⟨rfl, rfl⟩

end Sys2Proof.Machine
end

