-- ==== Sys2Proof/Laws/Access.lean ====
section
/-! SUPPORT. The corruption loop one iteration at a time, what it keeps, and the blocks and targets the card commands use. -/

namespace Sys2Proof.Machine

/-- A block written out. -/
theorem Memory.block_eq (m : Memory) (s : Fin 2) (b : Fin 4) :
    Memory.block m s b =
      [Memory.byte m s b 0, Memory.byte m s b 1, Memory.byte m s b 2, Memory.byte m s b 3, Memory.byte m s b 4,
        Memory.byte m s b 5, Memory.byte m s b 6, Memory.byte m s b 7, Memory.byte m s b 8] := rfl

@[simp] theorem flipBit_length (buf : Bytes) (p q : Nat) : (flipBit buf p q).length = buf.length := by
  simp [flipBit]

@[simp] theorem flipBits_length (flips : List (Nat × Nat)) (buf : Bytes) : (flipBits buf flips).length = buf.length := by
  unfold flipBits
  induction flips generalizing buf with
  | nil => rfl
  | cons pq flips ih => rw [List.foldl_cons, ih, flipBit_length]

/-- A non-zero `c` ends the loop; the draws after it are left. -/
theorem corrupt_stop {c : Nat} (h : c % 3 ≠ 0) (draws : List Nat) (k : Nat) (buf : Bytes) :
    corrupt (c :: draws) k buf = some (buf, draws, k) := by
  match draws with
  | [] => simp [corrupt, h]
  | [_] => simp [corrupt, h]
  | _ :: _ :: _ => simp [corrupt, h]

/-- A zero `c` flips one bit and the loop repeats. -/
theorem corrupt_flip {c : Nat} (h : c % 3 = 0) (p q : Nat) (draws : List Nat) (k : Nat) (buf : Bytes) :
    corrupt (c :: p :: q :: draws) k buf = corrupt draws k (flipBit buf (p % 8) (q % 8)) := by
  simp [corrupt, h]

/-- No listed value left: the loop is the source's own. -/
theorem corrupt_nil (k : Nat) (buf : Bytes) : corrupt [] k buf = corruptFree k buf := rfl

/-- Only a zero `c` left: both positions are drawn from the source. -/
theorem corrupt_one {c : Nat} (h : c % 3 = 0) (k : Nat) (buf : Bytes) :
    corrupt [c] k buf = corruptFree (k + 2) (flipBit buf (Config.freeDraw k % 8) (Config.freeDraw (k + 1) % 8)) := by
  simp [corrupt, h]

/-- A zero `c` and a byte position left: the bit is drawn from the source. -/
theorem corrupt_two {c : Nat} (h : c % 3 = 0) (p k : Nat) (buf : Bytes) :
    corrupt [c, p] k buf = corruptFree (k + 1) (flipBit buf (p % 8) (Config.freeDraw k % 8)) := by
  simp [corrupt, h]

/-- Listed flips followed by anything: they are made, and the loop goes on with what follows (R121). -/
theorem corrupt_flips (flips : List (Fin 8 × Fin 8)) (draws : List Nat) (k : Nat) (buf : Bytes) :
    corrupt (flips.flatMap (fun pq => [0, pq.1.val, pq.2.val]) ++ draws) k buf =
      corrupt draws k (flips.foldl (fun b pq => flipBit b pq.1.val pq.2.val) buf) := by
  induction flips generalizing buf with
  | nil => rfl
  | cons pq flips ih =>
    simp only [List.flatMap_cons, List.cons_append, List.nil_append, List.foldl_cons]
    rw [corrupt_flip rfl, Nat.mod_eq_of_lt pq.1.isLt, Nat.mod_eq_of_lt pq.2.isLt, ih]

theorem corruptFree_eq_none {k : Nat} {buf : Bytes} : corruptFree k buf = none ↔ Config.freeFlips k = none := by
  simp [corruptFree]

/-- When the loop never ends: whole listed iterations of a zero `c`, at most an unfinished one, and a source that never ends it. -/
theorem corrupt_eq_none {draws : List Nat} {k : Nat} {buf : Bytes} (h : corrupt draws k buf = none) :
    ∃ (turns : List (Nat × Nat × Nat)) (tail : List Nat),
      draws = turns.flatMap (fun d => [d.1, d.2.1, d.2.2]) ++ tail ∧ (∀ d ∈ turns, d.1 % 3 = 0) ∧
      ((tail = [] ∧ Config.freeFlips k = none) ∨ (∃ c, tail = [c] ∧ c % 3 = 0 ∧ Config.freeFlips (k + 2) = none) ∨
        (∃ c p, tail = [c, p] ∧ c % 3 = 0 ∧ Config.freeFlips (k + 1) = none)) := by
  induction draws, k, buf using corrupt.induct with
  | case1 k buf => exact ⟨[], [], rfl, by simp, .inl ⟨rfl, corruptFree_eq_none.mp h⟩⟩
  | case2 c k buf hc =>
    rw [corrupt_one hc] at h
    exact ⟨[], [c], rfl, by simp, .inr (.inl ⟨c, rfl, hc, corruptFree_eq_none.mp h⟩)⟩
  | case3 c k buf hc => rw [corrupt_stop hc] at h; cases h
  | case4 c p k buf hc =>
    rw [corrupt_two hc] at h
    exact ⟨[], [c, p], rfl, by simp, .inr (.inr ⟨c, p, rfl, hc, corruptFree_eq_none.mp h⟩)⟩
  | case5 c p k buf hc => rw [corrupt_stop hc] at h; cases h
  | case6 c p q draws k buf hc ih =>
    rw [corrupt_flip hc] at h
    obtain ⟨turns, tail, rfl, hall, hend⟩ := ih h
    exact ⟨(c, p, q) :: turns, tail, rfl, List.forall_mem_cons.mpr ⟨hc, hall⟩, hend⟩
  | case7 c p q draws k buf hc => rw [corrupt_stop hc] at h; cases h

theorem corruptFree_length {k : Nat} {buf : Bytes} {r : Bytes × List Nat × Nat} (h : corruptFree k buf = some r) :
    r.1.length = buf.length := by
  simp only [corruptFree, Option.map_eq_some_iff] at h
  obtain ⟨flips, _, rfl⟩ := h
  exact flipBits_length flips buf

/-- The loop keeps the length of its buffer. -/
theorem corrupt_length (draws : List Nat) (k : Nat) (buf : Bytes) {r : Bytes × List Nat × Nat} (h : corrupt draws k buf = some r) :
    r.1.length = buf.length := by
  induction draws, k, buf using corrupt.induct with
  | case1 k buf => exact corruptFree_length h
  | case2 c k buf hc =>
    simp only [corrupt, if_pos hc] at h
    exact (corruptFree_length h).trans (flipBit_length _ _ _)
  | case3 c k buf hc => rw [corrupt_stop hc] at h; cases h; rfl
  | case4 c p k buf hc =>
    simp only [corrupt, if_pos hc] at h
    exact (corruptFree_length h).trans (flipBit_length _ _ _)
  | case5 c p k buf hc => rw [corrupt_stop hc] at h; cases h; rfl
  | case6 c p q draws k buf hc ih =>
    rw [corrupt_flip hc] at h
    exact (ih h).trans (flipBit_length _ _ _)
  | case7 c p q draws k buf hc => rw [corrupt_stop hc] at h; cases h; rfl

/-- A noisy read that ends takes draws and answers `OK`; it changes nothing else (R121, R123). -/
theorem State.noisyRead_next {s t : State} {sec : Fin 2} {blk : Fin 4} (h : s.noisyRead sec blk = .next t) :
    ∃ draws drawn payload, t = ({ s with draws := draws, drawn := drawn } : State).answered (statusOk :: payload) := by
  simp only [State.noisyRead] at h
  split at h
  · cases h
  · cases h; exact ⟨_, _, _, rfl⟩

/-- Where a CARD_WRITE stores: the authorised block, the offset of the frame, the identity block only when it is writable. -/
theorem State.writeTarget_eq_some {s : State} {ss bb oo : Byte} {kt : KeyType} {key : Quad} {sec : Fin 2} {blk : Fin 4} {off : Fin 9} :
    s.writeTarget ss bb oo kt key = some (sec, blk, off) ↔
      s.auth .write ss bb kt key = some (sec, blk) ∧ oo.toNat = off.val ∧ oo.toNat ≤ 7 ∧ ¬(sec = 0 ∧ blk = 0 ∧ s.b0w = false) := by
  unfold State.writeTarget
  split
  · rename_i off' sec' blk' h1 h2
    rw [writeOffsetOf_eq_some] at h1
    rw [h2]
    split
    · rename_i hl
      simp only [reduceCtorEq, false_iff, Option.some.injEq, Prod.mk.injEq]
      rintro ⟨⟨rfl, rfl⟩, _, _, h⟩
      exact h hl
    · rename_i hl
      simp only [Option.some.injEq, Prod.mk.injEq]
      constructor
      · rintro ⟨rfl, rfl, rfl⟩; exact ⟨⟨rfl, rfl⟩, h1.1, h1.2, hl⟩
      · rintro ⟨⟨rfl, rfl⟩, h3, _, _⟩; exact ⟨rfl, rfl, Fin.ext (by omega)⟩
  · rename_i h
    simp only [reduceCtorEq, false_iff]
    rintro ⟨h1, h2, h3, _⟩
    exact h off sec blk (writeOffsetOf_eq_some.mpr ⟨h2, h3⟩) h1

/-- Where a CARD_WRITEO stores: the coordinates of the frame. -/
theorem overrideTarget_eq_some {ss bb oo : Byte} {sec : Fin 2} {blk : Fin 4} {off : Fin 9} :
    overrideTarget ss bb oo = some (sec, blk, off) ↔ ss.toNat = sec.val ∧ bb.toNat = blk.val ∧ oo.toNat = off.val := by
  rw [← sectorOf_eq_some, ← blockOf_eq_some, ← offsetOf_eq_some]
  unfold overrideTarget
  cases sectorOf ss <;> cases blockOf bb <;> cases offsetOf oo <;> simp

theorem overrideTarget_eq_none {ss bb oo : Byte} :
    overrideTarget ss bb oo = none ↔ 1 < ss.toNat ∨ 3 < bb.toNat ∨ 8 < oo.toNat := by
  rw [← sectorOf_eq_none, ← blockOf_eq_none, ← offsetOf_eq_none]
  unfold overrideTarget
  cases sectorOf ss <;> cases blockOf bb <;> cases offsetOf oo <;> simp

end Sys2Proof.Machine
end

