-- ==== Sys2Proof/Laws/Draws.lean ====
section
/-! SUPPORT. What each draw takes from the random source and what it leaves: the value numbered `k` of the source is
`State.source k`, and a draw of `n` values leaves `State.skipDraws n`. -/

namespace Sys2Proof.Machine

@[simp] theorem State.skipDraws_zero (s : State) : s.skipDraws 0 = s := by
  simp [State.skipDraws]

theorem State.skipDraws_add (s : State) (j k : Nat) : (s.skipDraws j).skipDraws k = s.skipDraws (j + k) := by
  simp only [State.skipDraws, List.drop_drop, List.length_drop, State.mk.injEq, true_and, and_true]
  omega

/-- The source after `j` draws is the source from value `j` on. -/
theorem State.source_skipDraws (s : State) (j k : Nat) : (s.skipDraws j).source k = s.source (j + k) := by
  unfold State.source State.skipDraws
  by_cases h : j + k < s.draws.length
  · rw [dif_pos (by simp; omega), dif_pos h]
    simp
  · rw [dif_neg (by simp; omega), dif_neg h]
    simp only [List.length_drop]
    congr 1
    omega

/-- `Draw(0, n)` takes one value of the source and brings it into its range. -/
theorem State.draw_eq (s : State) (n : Nat) : s.draw n = (s.source 0 % n, s.skipDraws 1) := by
  unfold State.draw State.source State.skipDraws
  split
  · rename_i v rest h
    simp [h]
  · rename_i h
    simp [h]

/-- The range of a draw (R58). -/
theorem State.draw_lt (s : State) {n : Nat} (h : 0 < n) : (s.draw n).1 < n := by
  rw [State.draw_eq]; exact Nat.mod_lt _ h

theorem State.drawByte_eq (s : State) : s.drawByte = (s.sourceByte 0, s.skipDraws 1) := by
  simp [State.drawByte, State.draw_eq, State.sourceByte]

theorem State.drawQuad_eq (s : State) : s.drawQuad = (s.sourceQuad 0, s.skipDraws 4) := by
  simp [State.drawQuad, State.drawByte_eq, State.sourceQuad, State.sourceByte, State.source_skipDraws, State.skipDraws_add]

theorem State.sourceQuad_skipDraws (s : State) (j k : Nat) : (s.skipDraws j).sourceQuad k = s.sourceQuad (j + k) := by
  simp [State.sourceQuad, State.sourceByte, State.source_skipDraws, Nat.add_assoc]

theorem State.sourceKeys_skipDraws (s : State) (j k : Nat) : (s.skipDraws j).sourceKeys k = s.sourceKeys (j + k) := by
  simp [State.sourceKeys, State.sourceQuad_skipDraws, Nat.add_assoc]

theorem State.drawKeyTable_eq (s : State) : s.drawKeyTable = (s.sourceKeys 0, s.skipDraws 16) := by
  simp [State.drawKeyTable, State.drawQuad_eq, State.sourceKeys, State.sourceQuad_skipDraws, State.skipDraws_add]

theorem State.unspecQuad_eq (s : State) : s.unspecQuad = (freeQuad s.unspecs, { s with unspecs := s.unspecs + 4 }) := rfl

/-- Sixteen unspecified bytes, each with a number of its own. -/
theorem State.unspecKeyTable_eq (s : State) : s.unspecKeyTable =
    (⟨freeQuad s.unspecs, freeQuad (s.unspecs + 4), freeQuad (s.unspecs + 8), freeQuad (s.unspecs + 12)⟩,
      { s with unspecs := s.unspecs + 16 }) := rfl

end Sys2Proof.Machine
end

