-- ==== Sys2Proof/Laws/Card.lean ====
section
/-! SUPPORT. The chain write, and what each step of CARD_INIT (41_card_init_check.md R106 to R113) writes and draws. -/

namespace Sys2Proof.Machine

/-! ### Blocks of bytes -/

/-- Bytes written inside one block, read back one by one. -/
theorem Memory.byte_writeBytes (m : Memory) (s s' : Fin 2) (b b' : Fin 4) (i o : Fin 9) (vs : Bytes) (h : o.val + vs.length ≤ 9) :
    Memory.byte (Memory.writeBytes m (addr s' b' o) vs) s b i =
      if h : s = s' ∧ b = b' ∧ o.val ≤ i.val ∧ i.val < o.val + vs.length then vs[i.val - o.val]'(by omega)
      else Memory.byte m s b i := by
  unfold Memory.byte
  rw [Memory.read_writeBytes]
  by_cases hc : s = s' ∧ b = b' ∧ o.val ≤ i.val ∧ i.val < o.val + vs.length
  · obtain ⟨rfl, rfl, h1, h2⟩ := hc
    rw [dif_pos (by unfold addr; omega), dif_pos ⟨rfl, rfl, h1, h2⟩]
    congr 1
    unfold addr; omega
  · rw [dif_neg, dif_neg hc]
    rintro ⟨h1, h2⟩
    unfold addr at h1 h2
    refine hc ⟨Fin.ext ?_, Fin.ext ?_, ?_, ?_⟩ <;> omega

/-- Four bytes written inside one block. -/
theorem Memory.byte_writeQuad (m : Memory) (s s' : Fin 2) (b b' : Fin 4) (i o : Fin 9) (q : Quad) (h : o.val ≤ 5) :
    Memory.byte (Memory.writeBytes m (addr s' b' o) q.toList) s b i =
      if h : s = s' ∧ b = b' ∧ o.val ≤ i.val ∧ i.val < o.val + 4 then q.toList[i.val - o.val]'(by simp [Quad.toList]; omega)
      else Memory.byte m s b i :=
  Memory.byte_writeBytes m s s' b b' i o q.toList (by simp [Quad.toList]; omega)

theorem Memory.writeQuad_wf {m : Memory} (s : Fin 2) (b : Fin 4) (o : Fin 9) (q : Quad) (h : Memory.wf m) (ho : o.val ≤ 5) :
    Memory.wf (Memory.writeBytes m (addr s b o) q.toList) :=
  Memory.writeBytes_wf _ h (by unfold addr memBytes; simp [Quad.toList]; omega)

/-! ### The chain -/

/-- The protected blocks (R41). -/
theorem mem_protectedAll (s : Fin 2) (b : Fin 4) : (s, b) ∈ protectedAll ↔ b ≠ 3 ∧ ¬(s = 0 ∧ b = 0) := by
  revert s b; decide

/-- A chain value looks at the blocks before its own, and at the first eight bytes of its own (R100). -/
theorem chainVal_congr {d : Divisor} {m m' : Memory} {s : Fin 2} {j : Fin 4}
    (h : ∀ (b : Fin 4) (i : Fin 9), b < j ∨ (b = j ∧ i ≠ 8) → Memory.byte m s b i = Memory.byte m' s b i) :
    chainVal d m s j = chainVal d m' s j := by
  unfold chainVal Memory.chainIn
  congr 2
  · refine List.flatMap_congr fun b hb => ?_
    exact Memory.block_congr fun i => h b i (.inl (by simpa using (List.mem_filter.mp hb).2))
  · have hi : ∀ i : Fin 9, i ≠ 8 → Memory.byte m s j i = Memory.byte m' s j i := fun i hne => h j i (.inr ⟨rfl, hne⟩)
    simp only [Memory.block_eq, List.take_succ_cons, List.take_zero]
    rw [hi 0 (by decide), hi 1 (by decide), hi 2 (by decide), hi 3 (by decide), hi 4 (by decide), hi 5 (by decide),
      hi 6 (by decide), hi 7 (by decide)]

/-- The chain write, one protected block at a time. -/
theorem chainWrite_eq (d : Divisor) (m : Memory) : chainWrite d m =
    let w := fun (m : Memory) (s : Fin 2) (j : Fin 4) => Memory.write m (addr s j 8) (chainVal d m s j)
    w (w (w (w (w m 0 1) 0 2) 1 0) 1 1) 1 2 := rfl

theorem chainOk_eq (d : Divisor) (m : Memory) : chainOk d m = true ↔
    ∀ (s : Fin 2) (j : Fin 4), j ≠ 3 → ¬(s = 0 ∧ j = 0) → Memory.byte m s j 8 = chainVal d m s j := by
  simp only [chainOk, List.all_eq_true, beq_iff_eq, Prod.forall, mem_protectedAll, and_imp]

/-- The chain write touches byte 8 of the protected blocks only (R103). -/
theorem chainWrite_byte_other (d : Divisor) (m : Memory) (s : Fin 2) (b : Fin 4) (i : Fin 9)
    (h : i ≠ 8 ∨ b = 3 ∨ (s = 0 ∧ b = 0)) : Memory.byte (chainWrite d m) s b i = Memory.byte m s b i := by
  simp only [chainWrite_eq, Memory.byte_write]
  repeat rw [if_neg (by rintro ⟨rfl, rfl, rfl⟩; simp at h)]

/-- A checksum byte written in another sector, or not before the block, leaves the block's chain value. -/
theorem chainVal_write (d : Divisor) (m : Memory) {s s' : Fin 2} {j j' : Fin 4} (v : Byte) (h : s' ≠ s ∨ j ≤ j') :
    chainVal d (Memory.write m (addr s' j' 8) v) s j = chainVal d m s j := by
  refine chainVal_congr fun b i hb => ?_
  rw [Memory.byte_write, if_neg]
  rintro ⟨rfl, rfl, rfl⟩
  rcases h with h | h
  · exact h rfl
  · rcases hb with hb | hb
    · omega
    · exact hb.2 rfl

/-- After the chain write every protected block's checksum is its chain value. -/
theorem chainWrite_byte_checksum (d : Divisor) (m : Memory) (s : Fin 2) (j : Fin 4) (hj : j ≠ 3) (h0 : ¬(s = 0 ∧ j = 0)) :
    Memory.byte (chainWrite d m) s j 8 = chainVal d (chainWrite d m) s j := by
  have hm : (s, j) = (0, 1) ∨ (s, j) = (0, 2) ∨ (s, j) = (1, 0) ∨ (s, j) = (1, 1) ∨ (s, j) = (1, 2) := by
    revert s j; decide
  simp only [Prod.mk.injEq] at hm
  obtain ⟨m1, h1⟩ : ∃ n, n = Memory.write m (addr 0 1 8) (chainVal d m 0 1) := ⟨_, rfl⟩
  obtain ⟨m2, h2⟩ : ∃ n, n = Memory.write m1 (addr 0 2 8) (chainVal d m1 0 2) := ⟨_, rfl⟩
  obtain ⟨m3, h3⟩ : ∃ n, n = Memory.write m2 (addr 1 0 8) (chainVal d m2 1 0) := ⟨_, rfl⟩
  obtain ⟨m4, h4⟩ : ∃ n, n = Memory.write m3 (addr 1 1 8) (chainVal d m3 1 1) := ⟨_, rfl⟩
  obtain ⟨m5, h5⟩ : ∃ n, n = Memory.write m4 (addr 1 2 8) (chainVal d m4 1 2) := ⟨_, rfl⟩
  have e : chainWrite d m = m5 := by rw [h5, h4, h3, h2, h1]; rfl
  have skip : ∀ {n n' : Memory} {s' : Fin 2} {j' : Fin 4} {v : Byte}, n = Memory.write n' (addr s' j' 8) v →
      (s' ≠ s ∨ j < j') → Memory.byte n' s j 8 = chainVal d n' s j → Memory.byte n s j 8 = chainVal d n s j := by
    rintro n n' s' j' v rfl hlt h
    rw [chainVal_write _ _ _ (hlt.imp_right le_of_lt), Memory.byte_write, if_neg, h]
    rintro ⟨rfl, rfl, _⟩
    rcases hlt with h | h
    · exact h rfl
    · exact absurd h (lt_irrefl _)
  have own : ∀ {n n' : Memory}, n = Memory.write n' (addr s j 8) (chainVal d n' s j) → Memory.byte n s j 8 = chainVal d n s j := by
    rintro n n' rfl
    rw [chainVal_write _ _ _ (.inr le_rfl), Memory.byte_write, if_pos ⟨rfl, rfl, rfl⟩]
  rw [e]
  rcases hm with ⟨rfl, rfl⟩ | ⟨rfl, rfl⟩ | ⟨rfl, rfl⟩ | ⟨rfl, rfl⟩ | ⟨rfl, rfl⟩
  · exact skip h5 (by decide) (skip h4 (by decide) (skip h3 (by decide) (skip h2 (by decide) (own h1))))
  · exact skip h5 (by decide) (skip h4 (by decide) (skip h3 (by decide) (own h2)))
  · exact skip h5 (by decide) (skip h4 (by decide) (own h3))
  · exact skip h5 (by decide) (own h4)
  · exact own h5

theorem chainWrite_wf (d : Divisor) {m : Memory} (h : Memory.wf m) : Memory.wf (chainWrite d m) := by
  rw [chainWrite_eq]
  repeat refine Memory.write_wf _ ?_ (addr_lt _ _ _)
  exact h

/-! ### The steps of CARD_INIT -/

/-- The eight payload bytes of one block (R106). -/
theorem Memory.byte_writePayload (m p : Memory) (s s' : Fin 2) (b b' : Fin 4) (i : Fin 9) :
    Memory.byte (Memory.writeBytes m (addr s' b' 0) (((List.finRange 9).take 8).map (Memory.byte p s' b'))) s b i =
      if s = s' ∧ b = b' ∧ i ≠ 8 then Memory.byte p s b i else Memory.byte m s b i := by
  rw [Memory.byte_writeBytes _ _ _ _ _ _ _ _ (by simp)]
  by_cases h : s = s' ∧ b = b' ∧ i ≠ 8
  · obtain ⟨rfl, rfl, hi⟩ := h
    have : i.val < 8 := by omega
    rw [dif_pos (by simpa using this), if_pos ⟨rfl, rfl, hi⟩]
    simp
  · rw [if_neg h, dif_neg]
    rintro ⟨h1, h2, _, h4⟩
    refine h ⟨h1, h2, ?_⟩
    rintro rfl
    simp at h4

/-- Step 2's storage: the payload bytes of the protected blocks, every other byte 0x00 (R106). -/
theorem blankStorage_byte (p : Config.Params) (s : Fin 2) (b : Fin 4) (i : Fin 9) :
    Memory.byte (blankStorage p) s b i =
      if b ≠ 3 ∧ ¬(s = 0 ∧ b = 0) ∧ i ≠ 8 then Memory.byte p.payloadInit s b i else 0 := by
  have e : blankStorage p =
      let w := fun (m : Memory) (s : Fin 2) (j : Fin 4) =>
        Memory.writeBytes m (addr s j 0) (((List.finRange 9).take 8).map (Memory.byte p.payloadInit s j))
      w (w (w (w (w [] 0 1) 0 2) 1 0) 1 1) 1 2 := rfl
  rw [e]
  simp only [Memory.byte_writePayload]
  by_cases hi : i = 8
  · simp [hi, Memory.byte, unlisted]
  · simp only [ne_eq, hi, not_false_eq_true, and_true, Memory.byte, Memory.read_nil, unlisted]
    generalize Memory.read p.payloadInit (addr s b i) = v
    fin_cases s <;> fin_cases b <;> rfl

theorem blankStorage_wf (p : Config.Params) : Memory.wf (blankStorage p) := by
  have step : ∀ (l : List (Fin 2 × Fin 4)) (m : Memory), Memory.wf m → Memory.wf (l.foldl
      (fun m sj => Memory.writeBytes m (addr sj.1 sj.2 0) (((List.finRange 9).take 8).map (Memory.byte p.payloadInit sj.1 sj.2))) m) := by
    intro l
    induction l with
    | nil => intro m h; exact h
    | cons sj l ih => intro m h; exact ih _ (Memory.writeBytes_wf _ h (by unfold addr memBytes; simp; omega))
  exact step _ _ Memory.wf_nil

/-- The keys of both trailers are the four keys given, and nothing else of storage changes (R42). -/
theorem Memory.writeKeys_byte_other (m : Memory) (kt : KeyTable) (s : Fin 2) (b : Fin 4) (i : Fin 9) (h : b ≠ 3 ∨ i = 4) :
    Memory.byte (Memory.writeKeys m kt) s b i = Memory.byte m s b i := by
  unfold Memory.writeKeys
  iterate 4 rw [Memory.byte_writeQuad _ _ _ _ _ _ _ _ (by decide), dif_neg (by
    rintro ⟨_, rfl, h1, h2⟩
    rcases h with h | rfl
    · exact h rfl
    · revert h1 h2; decide)]

theorem Memory.writeKeys_key (m : Memory) (kt : KeyTable) :
    Memory.key (Memory.writeKeys m kt) 0 .a = kt.s0a ∧ Memory.key (Memory.writeKeys m kt) 0 .b = kt.s0b ∧
    Memory.key (Memory.writeKeys m kt) 1 .a = kt.s1a ∧ Memory.key (Memory.writeKeys m kt) 1 .b = kt.s1b := by
  simp (disch := decide) only [Memory.key, Memory.quad, Memory.writeKeys, Memory.byte_writeQuad]
  exact ⟨rfl, rfl, rfl, rfl⟩

theorem Memory.writeKeys_wf {m : Memory} (kt : KeyTable) (h : Memory.wf m) : Memory.wf (Memory.writeKeys m kt) := by
  unfold Memory.writeKeys
  exact Memory.writeQuad_wf _ _ _ _ (Memory.writeQuad_wf _ _ _ _ (Memory.writeQuad_wf _ _ _ _ (Memory.writeQuad_wf _ _ _ _ h
    (by decide)) (by decide)) (by decide)) (by decide)

/-- Step 3 (R107). -/
theorem State.initId_eq (s : State) (flags : Byte) (id : Quad) : s.initId flags id =
    { s.skipDraws (if flagIdV flags then 0 else 4) with
      mem := Memory.writeBytes s.mem (addr 0 0 0) (if flagIdV flags then id else s.sourceQuad 0).toList } := by
  unfold State.initId
  cases flagIdV flags <;> simp [State.drawQuad_eq]

/-- Step 5 (R109). -/
theorem State.initMfg_eq (s : State) (flags : Byte) (mfg : Quad) : s.initMfg flags mfg =
    { s.skipDraws (if flagMfgV flags then 0 else 5) with
      cardType := if flagMfgV flags then flagType flags else s.source 0 % 2 == 1
      mem := Memory.writeBytes s.mem (addr 0 0 5) (if flagMfgV flags then mfg else s.sourceQuad 1).toList } := by
  unfold State.initMfg
  cases flagMfgV flags <;>
    simp [State.draw_eq, State.drawQuad_eq, State.sourceQuad_skipDraws, State.skipDraws_add]

/-- Step 6 (R110). -/
theorem State.initKeys_eq (s : State) (flags : Byte) (keys : KeyTable) : s.initKeys flags keys =
    { s.skipDraws (if flagKdf flags || flagKeysV flags then 0 else 16) with
      unspecs := s.unspecs + (if flagKdf flags then 16 else 0)
      mem := Memory.writeKeys s.mem
        (if flagKdf flags then
          ⟨freeQuad s.unspecs, freeQuad (s.unspecs + 4), freeQuad (s.unspecs + 8), freeQuad (s.unspecs + 12)⟩
        else if flagKeysV flags then keys else s.sourceKeys 0) } := by
  unfold State.initKeys
  cases flagKdf flags <;> cases flagKeysV flags <;>
    simp [State.drawKeyTable_eq, State.unspecKeyTable_eq]

/-! ### CARD_INIT as a whole -/

/-- The draws step 3 makes (R114). -/
def idDraws (flags : Byte) : Nat := if flagIdV flags then 0 else 4

/-- The draws step 5 makes (R114). -/
def mfgDraws (flags : Byte) : Nat := if flagMfgV flags then 0 else 5

/-- The draws step 6 makes (R114). -/
def keyDraws (flags : Byte) : Nat := if flagKdf flags || flagKeysV flags then 0 else 16

/-- `State.source` as a function of the two fields it looks at. -/
def sourceOf (draws : List Nat) (drawn k : Nat) : Nat :=
  if h : k < draws.length then draws[k] else Config.freeDraw (drawn + (k - draws.length))

/-- `State.sourceQuad` in the same form. -/
def sourceQuadOf (draws : List Nat) (drawn k : Nat) : Quad :=
  let byte := fun j => BitVec.ofNat 8 (sourceOf draws drawn (k + j) % 256)
  ⟨byte 0, byte 1, byte 2, byte 3⟩

/-- `State.sourceKeys` in the same form. -/
def sourceKeysOf (draws : List Nat) (drawn k : Nat) : KeyTable :=
  let quad := fun j => sourceQuadOf draws drawn (k + j)
  ⟨quad 0, quad 4, quad 8, quad 12⟩

theorem State.source_eq (s : State) (k : Nat) : s.source k = sourceOf s.draws s.drawn k := rfl

theorem State.sourceQuad_eq (s : State) (k : Nat) : s.sourceQuad k = sourceQuadOf s.draws s.drawn k := rfl

theorem State.sourceKeys_eq (s : State) (k : Nat) : s.sourceKeys k = sourceKeysOf s.draws s.drawn k := rfl

theorem sourceOf_drop (d : List Nat) (n j k : Nat) : sourceOf (d.drop j) (n + (j - d.length)) k = sourceOf d n (j + k) := by
  unfold sourceOf
  by_cases h : j + k < d.length
  · rw [dif_pos (by simp; omega), dif_pos h]
    simp
  · rw [dif_neg (by simp; omega), dif_neg h]
    simp only [List.length_drop]
    congr 1
    omega

theorem sourceQuadOf_drop (d : List Nat) (n j k : Nat) :
    sourceQuadOf (d.drop j) (n + (j - d.length)) k = sourceQuadOf d n (j + k) := by
  simp only [sourceQuadOf, sourceOf_drop, Nat.add_assoc]

theorem sourceKeysOf_drop (d : List Nat) (n j k : Nat) :
    sourceKeysOf (d.drop j) (n + (j - d.length)) k = sourceKeysOf d n (j + k) := by
  simp only [sourceKeysOf, sourceQuadOf_drop, Nat.add_assoc]

/-- The storage of a new card before the access bytes and the chain write: steps 2, 3, 4, 5, 6 in that order. -/
def State.cardBytes (s : State) (flags crcKey : Byte) (id mfg : Quad) (keys : KeyTable) : Memory :=
  let blank := blankStorage s.params
  let identity := Memory.write (Memory.writeBytes blank (addr 0 0 0) (if flagIdV flags then id else s.sourceQuad 0).toList) (addr 0 0 4) crcKey
  let made := Memory.writeBytes identity (addr 0 0 5) (if flagMfgV flags then mfg else s.sourceQuad (idDraws flags + 1)).toList
  Memory.writeKeys made
    (if flagKdf flags then ⟨freeQuad s.unspecs, freeQuad (s.unspecs + 4), freeQuad (s.unspecs + 8), freeQuad (s.unspecs + 12)⟩
    else if flagKeysV flags then keys else s.sourceKeys (idDraws flags + mfgDraws flags))

/-- Everything a CARD_INIT with a non-zero key does to the state, its response apart. -/
theorem State.buildCard_eq (s : State) (flags crcKey : Byte) (id mfg : Quad) (keys : KeyTable) (ac0 ac1 : Byte) :
    s.buildCard flags crcKey id mfg keys ac0 ac1 =
      { s.skipDraws (idDraws flags + mfgDraws flags + keyDraws flags) with
        cardDiv := divisorOf crcKey
        mem := chainWrite (divisorOf crcKey) (Memory.write
          (Memory.write (s.cardBytes flags crcKey id mfg keys) (addr 0 3 4) (if flagAcV flags then ac0 else acDefault))
          (addr 1 3 4) (if flagAcV flags then ac1 else acDefault))
        cardType := if flagMfgV flags then flagType flags else s.source (idDraws flags) % 2 == 1
        unspecs := s.unspecs + (if flagKdf flags then 16 else 0)
        b0w := flagB0w flags, cardInitd := true } := by
  simp only [State.buildCard, State.cardBytes, State.beginCard, State.initId_eq, State.initKeyCopy, State.initMfg_eq,
    State.initKeys_eq, State.initAccess, State.finishCard, State.source_eq, State.sourceQuad_eq, State.sourceKeys_eq,
    ← State.skipDraws_add]
  cases s
  simp only [State.skipDraws, sourceQuadOf_drop, sourceOf_drop, sourceKeysOf_drop, ← idDraws.eq_1, ← mfgDraws.eq_1,
    ← keyDraws.eq_1, Nat.add_zero]

/-- The storage a CARD_INIT leaves is in canonical form. -/
theorem State.buildCard_wf (s : State) (flags crcKey : Byte) (id mfg : Quad) (keys : KeyTable) (ac0 ac1 : Byte) :
    Memory.wf (s.buildCard flags crcKey id mfg keys ac0 ac1).mem := by
  rw [State.buildCard_eq]
  exact chainWrite_wf _ (Memory.write_wf _ (Memory.write_wf _ (Memory.writeKeys_wf _ (Memory.writeQuad_wf _ _ _ _
    (Memory.write_wf _ (Memory.writeQuad_wf _ _ _ _ (blankStorage_wf _) (by decide)) (by decide)) (by decide)))
    (by decide)) (by decide))

/-- Everything VAL_INIT does to the state, its response apart (R140, R141). -/
theorem State.buildValidator_eq (s : State) (vflags vk : Byte) (vmfg : Quad) : s.buildValidator vflags vk vmfg =
    { s.skipDraws (if flagValEn vflags then 21 else 20) with
      valKt := s.sourceKeys 0, valId := s.sourceQuad 16, valMfg := vmfg, valCrcKey := vk, valEn := flagValEn vflags
      valSel := BitVec.ofNat 2 (if flagValEn vflags then s.source 20 % 4 else 0), valInitd := true } := by
  unfold State.buildValidator
  simp only [State.drawKeyTable_eq, State.drawQuad_eq, State.draw_eq, State.sourceQuad_skipDraws, State.skipDraws_add,
    State.source_skipDraws]
  cases flagValEn vflags <;> rfl

@[simp] theorem divisorKey_divisorOf (k : Byte) : divisorKey (divisorOf k) = k := by revert k; decide

@[simp] theorem divisorOf_exists (k : Byte) : (divisorOf k).getLsbD 8 = true := by revert k; decide

end Sys2Proof.Machine
end

