-- ==== Sys2Proof/Laws/Decode.lean ====
section
/-! SUPPORT. The opcode map read both ways, and the pieces of the two decoding directions. -/

namespace Sys2Proof

theorem Opcode.mem_all (o : Opcode) : o ∈ Opcode.all := by cases o <;> decide

@[simp] theorem Opcode.ofByte_toByte (o : Opcode) : Opcode.ofByte o.toByte = some o := by cases o <;> decide

/-- A first byte selects a command only when it is that command's opcode (R66). -/
theorem Opcode.ofByte_eq_some {b : Byte} {o : Opcode} : Opcode.ofByte b = some o ↔ b = o.toByte := by
  constructor
  · intro h
    have := List.find?_some h
    simpa using (beq_iff_eq.mp this).symm
  · rintro rfl; exact Opcode.ofByte_toByte o

/-- A reserved first byte is no command's opcode (R72). -/
theorem Opcode.ofByte_eq_none {b : Byte} : Opcode.ofByte b = none ↔ ∀ o : Opcode, b ≠ o.toByte := by
  rw [Option.eq_none_iff_forall_ne_some]
  exact forall_congr' fun o => not_congr Opcode.ofByte_eq_some

@[simp] theorem decodeKeyType_encodeKeyType (t : KeyType) : decodeKeyType (encodeKeyType t) = some t := by
  cases t <;> decide

theorem decodeKeyType_eq_some {kt : Byte} {t : KeyType} : decodeKeyType kt = some t ↔ kt = encodeKeyType t := by
  constructor
  · unfold decodeKeyType
    split
    · rename_i h; intro ht; cases ht; exact h
    · split
      · rename_i h; intro ht; cases ht; exact h
      · intro ht; cases ht
  · rintro rfl; exact decodeKeyType_encodeKeyType t

theorem decodeKeyType_eq_none {kt : Byte} : decodeKeyType kt = none ↔ 1 < kt.toNat := by
  revert kt; decide

/-- Decoding a frame that starts with an assigned opcode is decoding its operands. -/
theorem decode_opcode (o : Opcode) (rest : Bytes) :
    decode (o.toByte :: rest) =
      match decodeOperands o rest with
      | none => .error (.malformed o)
      | some i => .ok i := by
  cases h : decodeOperands o rest <;> simp only [decode, Opcode.ofByte_toByte, h]

end Sys2Proof
end

