-- ==== Sys2Proof/Laws/PerInstr.lean ====
section
/-! SUPPORT. What holds of every command as syntax, one lemma per constructor. -/

namespace Sys2Proof

/-- The frame of a command starts with the opcode of its row and has the length of its format (30_encoding.md R64, R65, R66). -/
def Laws.FrameShape.Statement (i : Instr) : Prop :=
  (encode i).head? = some i.opcode.toByte ∧ ∀ n, i.opcode.frameLength = some n → (encode i).length = n

theorem Laws.FrameShape.crcInit (k : Byte) : Laws.FrameShape.Statement (.crcInit k) :=
  ⟨rfl, fun _ h => Option.some.inj h⟩

theorem Laws.FrameShape.crcGetdiv : Laws.FrameShape.Statement .crcGetdiv :=
  ⟨rfl, fun _ h => Option.some.inj h⟩

theorem Laws.FrameShape.crcCalc (data : Bytes) : Laws.FrameShape.Statement (.crcCalc data) :=
  ⟨rfl, fun _ h => nomatch h⟩

theorem Laws.FrameShape.cardInit (flags crcKey : Byte) (id mfg s0ka s0kb s1ka s1kb : Quad) (ac0 ac1 : Byte) :
    Laws.FrameShape.Statement (.cardInit flags crcKey id mfg s0ka s0kb s1ka s1kb ac0 ac1) :=
  ⟨rfl, fun _ h => Option.some.inj h⟩

theorem Laws.FrameShape.cardCheck : Laws.FrameShape.Statement .cardCheck :=
  ⟨rfl, fun _ h => Option.some.inj h⟩

theorem Laws.FrameShape.cardRead (ss bb : Byte) (kt : KeyType) (key : Quad) :
    Laws.FrameShape.Statement (.cardRead ss bb kt key) :=
  ⟨rfl, fun _ h => Option.some.inj h⟩

theorem Laws.FrameShape.cardReadi (ss bb : Byte) (kt : KeyType) (key : Quad) :
    Laws.FrameShape.Statement (.cardReadi ss bb kt key) :=
  ⟨rfl, fun _ h => Option.some.inj h⟩

theorem Laws.FrameShape.cardWrite (ss bb oo : Byte) (kt : KeyType) (key : Quad) (dd : Byte) :
    Laws.FrameShape.Statement (.cardWrite ss bb oo kt key dd) :=
  ⟨rfl, fun _ h => Option.some.inj h⟩

theorem Laws.FrameShape.cardWriteo (ss bb oo dd : Byte) : Laws.FrameShape.Statement (.cardWriteo ss bb oo dd) :=
  ⟨rfl, fun _ h => Option.some.inj h⟩

theorem Laws.FrameShape.valInit (vflags vk : Byte) (vmfg : Quad) : Laws.FrameShape.Statement (.valInit vflags vk vmfg) :=
  ⟨rfl, fun _ h => Option.some.inj h⟩

theorem Laws.FrameShape.valCheck : Laws.FrameShape.Statement .valCheck :=
  ⟨rfl, fun _ h => Option.some.inj h⟩

end Sys2Proof
end

