-- ==== Sys2Proof/Laws/Step.lean ====
section
/-! SUPPORT. Everything a command can do, and everything a frame can do, said once. -/

namespace Sys2Proof.Machine

/-- The ways a command `i` can take `s` to `t`. -/
inductive Effect (i : Instr) (s t : State) : Prop
  /-- A hard failure; `E5` is CARD_WRITEO's alone (R151). -/
  | failed (code : Byte) (hcode : code ∈ ([0xE0, 0xE1, 0xE2, 0xE3, 0xE4, 0xE5] : Bytes)) (haddr : code = 0xE5 → i.opcode = .cardWriteo)
      (ht : t = s.answered [code])
  /-- An `OK` response and nothing else. -/
  | answered (payload : Bytes) (ht : t = s.answered (statusOk :: payload))
  | crcInit (k : Byte) (hi : i.opcode = .crcInit) (hp : s.port = .prv) (hk : k ≠ 0)
      (ht : t = { s with crcDiv := divisorOf k }.answered [statusOk])
  | cardInit (flags crcKey : Byte) (id mfg : Quad) (keys : KeyTable) (ac0 ac1 : Byte) (hi : i.opcode = .cardInit)
      (hp : s.port = .prv) (hk : crcKey ≠ 0) (ht : t = (s.buildCard flags crcKey id mfg keys ac0 ac1).answered [statusOk])
  /-- A noisy read, which takes draws. -/
  | noisy (draws : List Nat) (drawn : Nat) (payload : Bytes) (hi : i.opcode = .cardRead)
      (ht : t = ({ s with draws := draws, drawn := drawn } : State).answered (statusOk :: payload))
  | cardWrite (sec : Fin 2) (blk : Fin 4) (off : Fin 9) (v : Byte) (hi : i.opcode = .cardWrite) (hc : s.cardInitd = true)
      (hoff : off ≠ 8) (hlock : ¬(sec = 0 ∧ blk = 0 ∧ s.b0w = false)) (ht : t = (s.storeByte sec blk off v).answered (statusOk :: tokenAck))
  | cardWriteo (sec : Fin 2) (blk : Fin 4) (off : Fin 9) (v : Byte) (hi : i.opcode = .cardWriteo) (hp : s.port = .prv)
      (hc : s.cardInitd = true) (ht : t = (s.storeByte sec blk off v).answered [statusOk])
  | valInit (vflags vk : Byte) (vmfg : Quad) (hi : i.opcode = .valInit) (hp : s.port = .prv)
      (ht : t = (s.buildValidator vflags vk vmfg).answered [statusOk])

/-- A privileged meaning answers `E2`, or it ran on PRV. -/
theorem Effect.privileged {i : Instr} {s t : State} {act : Result} (h : s.privileged act = .next t)
    (run : s.port = .prv → act = .next t → Effect i s t) : Effect i s t := by
  rcases State.privileged_cases s t act h with ⟨hp, h⟩ | ⟨_, h⟩
  · exact run hp h
  · exact .failed 0xE2 (by decide) (absurd · (by decide)) h

/-- A meaning that needs a card answers `E4`, or there is one. -/
theorem Effect.needCard {i : Instr} {s t : State} {act : Result} (h : s.needCard act = .next t)
    (run : s.cardInitd = true → act = .next t → Effect i s t) : Effect i s t := by
  rcases State.needCard_cases s t act h with ⟨hc, h⟩ | ⟨_, h⟩
  · exact run hc h
  · exact .failed 0xE4 (by decide) (absurd · (by decide)) h

/-- A command that answers `next t` has one of the effects. -/
theorem exec_effect {i : Instr} {s t : State} (h : exec i s = .next t) : Effect i s t := by
  cases i with
  | crcInit k =>
    refine .privileged h fun hp h => ?_
    split at h
    · cases h; exact .failed 0xE3 (by decide) (absurd · (by decide)) rfl
    · rename_i hk; cases h; exact .crcInit k rfl hp hk rfl
  | crcGetdiv =>
    refine .privileged h fun _ h => ?_
    rcases State.needCrc_cases s t _ h with ⟨_, h⟩ | ⟨_, h⟩
    · cases h; exact .answered _ rfl
    · exact .failed 0xE4 (by decide) (absurd · (by decide)) h
  | crcCalc data =>
    refine .privileged h fun _ h => ?_
    split at h
    · rcases State.needCrc_cases s t _ h with ⟨_, h⟩ | ⟨_, h⟩
      · cases h; exact .answered _ rfl
      · exact .failed 0xE4 (by decide) (absurd · (by decide)) h
    · cases h; exact .failed 0xE1 (by decide) (absurd · (by decide)) rfl
  | cardInit flags crcKey id mfg s0ka s0kb s1ka s1kb ac0 ac1 =>
    refine .privileged h fun hp h => ?_
    split at h
    · cases h; exact .failed 0xE3 (by decide) (absurd · (by decide)) rfl
    · rename_i hk; cases h; exact .cardInit _ _ _ _ _ _ _ rfl hp hk rfl
  | cardCheck =>
    refine .privileged h fun _ h => .needCard h fun _ h => ?_
    cases h; exact .answered _ rfl
  | cardRead ss bb kt key =>
    refine .needCard h fun _ h => ?_
    split at h
    · cases h; exact .answered _ rfl
    · split at h
      · cases h; exact .answered _ rfl
      · obtain ⟨draws, drawn, payload, ht⟩ := State.noisyRead_next h
        exact .noisy draws drawn payload rfl ht
  | cardReadi ss bb kt key =>
    refine .privileged h fun _ h => .needCard h fun _ h => ?_
    cases h; exact .answered _ rfl
  | cardWrite ss bb oo kt key dd =>
    refine .needCard h fun hc h => ?_
    split at h
    · cases h; exact .answered _ rfl
    · rename_i sec blk off ht
      rw [State.writeTarget_eq_some] at ht
      obtain ⟨_, h1, h2, h3⟩ := ht
      cases h
      exact .cardWrite sec blk off dd rfl hc (by rintro rfl; exact absurd (h1 ▸ h2) (by decide)) h3 rfl
  | cardWriteo ss bb oo dd =>
    refine .privileged h fun hp h => .needCard h fun hc h => ?_
    split at h
    · cases h; exact .failed 0xE5 (by decide) (fun _ => rfl) rfl
    · cases h; exact .cardWriteo _ _ _ _ rfl hp hc rfl
  | valInit vflags vk vmfg =>
    refine .privileged h fun hp h => ?_
    cases h; exact .valInit _ _ _ rfl hp rfl
  | valCheck =>
    refine .privileged h fun _ h => ?_
    rcases State.needValidator_cases s t _ h with ⟨_, h⟩ | ⟨_, h⟩
    · split at h
      · refine .needCard h fun _ h => ?_
        cases h; exact .answered _ rfl
      · cases h; exact .answered _ rfl
    · exact .failed 0xE4 (by decide) (absurd · (by decide)) h

/-- A step on a frame that answers `next t` has one of the effects of some command, from the state that took the frame. -/
theorem step_frame_effect {s t : State} {src : Port} {f : Bytes} {rest : List Event} (hp : s.pending = .frame src f :: rest)
    (h : step s = .next t) : ∃ i, Effect i (s.accept src rest) t := by
  simp only [step, hp] at h
  split at h
  · exact ⟨_, exec_effect h⟩
  · rw [State.rejectFrame_eq] at h
    cases h
    rename_i e _
    have h : (s.accept src rest).illegalFrame e ≠ .addr := by
      cases e <;> simp only [State.illegalFrame] <;> (try split) <;> decide
    revert h
    generalize (s.accept src rest).illegalFrame e = failure
    intro h
    refine ⟨.crcGetdiv, .failed _ ?_ (fun hc => absurd hc ?_) rfl⟩
    · cases failure <;> decide
    · cases failure <;> first | exact absurd rfl h | decide

end Sys2Proof.Machine
end

