-- ==== Sys2Proof/Tests/Slice0.lean ====
section
/-! SUPPORT. Tests. The expected values are the spec's own (95_test_vectors.md, named in the comments), and the witnesses show that
the hypotheses of each statement can be met together. -/

open Sys2Proof Sys2Proof.Machine

namespace Sys2Proof.Tests

/-! ### States -/

/-- The reset state, a command on PRV in progress. -/
def prv : State := { State.reset with port := .prv }

/-- The reset state with a frame to come. -/
def sent (src : Port) (f : Bytes) : State := { State.reset with pending := [.frame src f] }

/-- The storage of state SA (V20), and the same with the access byte of sector 0 given. -/
def memSA (ac : Byte) : Memory :=
  [(0, 0xBC), (1, 0x69), (2, 0x37), (3, 0x42), (4, 0x49), (5, 0x02), (6, 0x61), (7, 0xC8), (8, 0x36), (17, 0x4D), (31, ac),
    (32, 0xDE), (33, 0xAD), (34, 0xC0), (35, 0xDE)] ++
  [(63, 0x69), (64, 0x69), (65, 0x69), (66, 0x69), (67, 0xFF), (68, 0xA0), (69, 0xA1), (70, 0xA2), (71, 0xA3)]

/-- State SA of 95_test_vectors.md, a command on PRV in progress. -/
def sa : State := { prv with cardInitd := true, cardDiv := 0x149, mem := memSA 0xFF }

/-- State SA with another access byte in sector 0. -/
def saAccess (ac : Byte) : State := { sa with mem := memSA ac }

/-- State SA with a frame to come. -/
def saSent (src : Port) (f : Bytes) : State := { sa with pending := [.frame src f] }

/-- Key A and Key B of sector 0 of SA. -/
def keyA : Quad := ⟨0, 0, 0, 0⟩
def keyB : Quad := ⟨0xDE, 0xAD, 0xC0, 0xDE⟩

/-- The validator of V50. -/
def val50 : State :=
  { prv with
    valInitd := true, valEn := true, valCrcKey := 0x49, valSel := 1, valId := ⟨0xBC, 0x69, 0x37, 0x42⟩
    valMfg := ⟨0x02, 0x61, 0xC8, 0x36⟩
    valKt := ⟨⟨0x11, 0x22, 0x33, 0x44⟩, ⟨0x55, 0x66, 0x77, 0x88⟩, ⟨0x99, 0xAA, 0xBB, 0xCC⟩, ⟨0xDD, 0xEE, 0xF0, 0x0F⟩⟩ }

/-- The next state of an outcome. -/
def after : Result → Option State
  | .next t => some t
  | .fault _ => none
  | .refused _ => none

/-- The last response an outcome leaves. -/
def said (r : Result) : Option Bytes := (after r).bind (fun t => t.responses.getLast?)

/-! ### WellFormed refuses what no frame stands for -/

/-- FLAGS bit 0 is reserved (R70). -/
theorem test_wf_cardInit_flags_bit0 : Instr.wf (.cardInit 0x01 0x49 keyA keyA keyA keyA keyA keyA 0 0) = false := by decide

/-- VFLAGS bits 7 to 1 are reserved (R71): the lowest and the highest of them. -/
theorem test_wf_valInit_vflags : Instr.wf (.valInit 0x02 0 keyA) = false ∧ Instr.wf (.valInit 0x80 0 keyA) = false := by decide

/-- Operands outside the storage shape are well-formed (R67, R73). -/
theorem test_wf_out_of_shape : Instr.wf (.cardWriteo 0xFF 0xFF 0xFF 0) = true := by decide

/-! ### Decode: one frame written out for every command (R65, R66, R78) -/

theorem test_decode_crcInit : decode [0x10, 0x49] = .ok (.crcInit 0x49) := rfl

theorem test_decode_crcGetdiv : decode [0x11] = .ok .crcGetdiv := rfl

theorem test_decode_crcCalc : decode [0x12, 0x10, 0x12] = .ok (.crcCalc [0x10, 0x12]) := rfl

/-- V29's frame, every field with a value of its own. -/
theorem test_decode_cardInit :
    decode [0x20, 0xF4, 0x0B, 0x01, 0x02, 0x03, 0x04, 0x05, 0x06, 0x07, 0x08, 0xA0, 0xA0, 0xA0, 0xA0, 0xB0, 0xB0, 0xB0, 0xB0,
      0xA1, 0xA1, 0xA1, 0xA1, 0xB1, 0xB1, 0xB1, 0xB1, 0xA6, 0x00] =
    .ok (.cardInit 0xF4 0x0B ⟨0x01, 0x02, 0x03, 0x04⟩ ⟨0x05, 0x06, 0x07, 0x08⟩ ⟨0xA0, 0xA0, 0xA0, 0xA0⟩ ⟨0xB0, 0xB0, 0xB0, 0xB0⟩
      ⟨0xA1, 0xA1, 0xA1, 0xA1⟩ ⟨0xB1, 0xB1, 0xB1, 0xB1⟩ 0xA6 0x00) := rfl

theorem test_decode_cardCheck : decode [0x21] = .ok .cardCheck := rfl

theorem test_decode_cardRead :
    decode [0x30, 0x00, 0x02, 0x01, 0xDE, 0xAD, 0xC0, 0xDF] = .ok (.cardRead 0 2 .b ⟨0xDE, 0xAD, 0xC0, 0xDF⟩) := rfl

theorem test_decode_cardReadi :
    decode [0x31, 0x01, 0x03, 0x00, 0xA0, 0xA1, 0xA2, 0xA3] = .ok (.cardReadi 1 3 .a ⟨0xA0, 0xA1, 0xA2, 0xA3⟩) := rfl

theorem test_decode_cardWrite :
    decode [0x40, 0x00, 0x02, 0x03, 0x01, 0xDE, 0xAD, 0xC0, 0xDF, 0xC3] =
      .ok (.cardWrite 0 2 3 .b ⟨0xDE, 0xAD, 0xC0, 0xDF⟩ 0xC3) := rfl

theorem test_decode_cardWriteo : decode [0x41, 0x00, 0x01, 0x08, 0x1D] = .ok (.cardWriteo 0 1 8 0x1D) := rfl

theorem test_decode_valInit :
    decode [0x50, 0x01, 0x49, 0x02, 0x61, 0xC8, 0x36] = .ok (.valInit 1 0x49 ⟨0x02, 0x61, 0xC8, 0x36⟩) := rfl

theorem test_decode_valCheck : decode [0x51] = .ok .valCheck := rfl

/-- Bytes of a table word count from its least significant; operand bytes the table gives no bits are zero. -/
theorem test_decode_table_words :
    decodeTableWord 16 0x4910 = some (.crcInit 0x49) ∧ decodeTableWord 40 0x1D08010041 = some (.cardWriteo 0 1 8 0x1D) ∧
    decodeTableWord 8 0x30 = some (.cardRead 0 0 .a keyA) ∧ decodeTableWord 8 0x99 = none := by decide

/-! ### One step of each command -/

/-- 40_crc.md R94's examples. -/
theorem test_crcInit : after (exec (.crcInit 0x49) prv) = some { prv with crcDiv := 0x149, responses := [[0x00]] } := by decide

theorem test_crcInit_zero : after (exec (.crcInit 0) prv) = some { prv with responses := [[0xE3]] } := by decide

/-- P1 step 6. -/
theorem test_crcGetdiv : said (exec .crcGetdiv { prv with crcDiv := 0x149 }) = some [0x00, 0x01, 0x49] := by decide

/-- V1 and V12. -/
theorem test_crcCalc : said (exec (.crcCalc [0x10, 0x12, 0x23, 0x66]) { prv with crcDiv := 0x149 }) = some [0x00, 0x8E] := by decide

theorem test_crcCalc_check :
    said (exec (.crcCalc [0x31, 0x32, 0x33, 0x34, 0x35, 0x36, 0x37, 0x38, 0x39]) { prv with crcDiv := 0x107 }) = some [0x00, 0xF4] := by
  decide

/-- V20: the frame that makes SA. -/
theorem test_cardInit :
    after (exec (.cardInit 0xE0 0x49 ⟨0xBC, 0x69, 0x37, 0x42⟩ ⟨0x02, 0x61, 0xC8, 0x36⟩ keyA keyB ⟨0x69, 0x69, 0x69, 0x69⟩
      ⟨0xA0, 0xA1, 0xA2, 0xA3⟩ 0 0) prv) = some { sa with responses := [[0x00]] } := by decide +kernel

/-- V21: every fallback, 25 draws; the type is drawn after the ID. -/
theorem test_cardInit_drawn :
    (after (exec (.cardInit 0x00 0x49 ⟨0xEE, 0xEE, 0xEE, 0xEE⟩ ⟨0xEE, 0xEE, 0xEE, 0xEE⟩ ⟨0xEE, 0xEE, 0xEE, 0xEE⟩
      ⟨0xEE, 0xEE, 0xEE, 0xEE⟩ ⟨0xEE, 0xEE, 0xEE, 0xEE⟩ ⟨0xEE, 0xEE, 0xEE, 0xEE⟩ 0xEE 0xEE)
      { prv with draws := [0xA1, 0xA2, 0xA3, 0xA4, 1, 0x10, 0x20, 0x30, 0x40] ++ (List.range 16).map (0x50 + ·) })).map
        (fun t => (Memory.block t.mem 0 0, Memory.block t.mem 1 3, t.cardType, t.draws)) =
      some ([0xA1, 0xA2, 0xA3, 0xA4, 0x49, 0x10, 0x20, 0x30, 0x40], [0x58, 0x59, 0x5A, 0x5B, 0xFF, 0x5C, 0x5D, 0x5E, 0x5F], true, []) := by
  decide +kernel

/-- V20b, and V25: a changed manufacturing byte breaks the chain. -/
theorem test_cardCheck : said (exec .cardCheck sa) = some [0x00, 0x01] := by decide +kernel

theorem test_cardCheck_broken : said (exec .cardCheck (sa.storeByte 0 0 8 0x37)) = some [0x00, 0x00] := by decide +kernel

/-- V30: two flips; the parity is of the stored bytes. -/
theorem test_cardRead :
    after (exec (.cardRead 0 0 .b keyB) { sa with draws := [0, 3, 5, 0, 7, 0, 2] }) =
      some { sa with
        responses := [[0x00, 0x62, 0x63, 0x20, 0x36, 0x39, 0x20, 0x33, 0x37, 0x20, 0x36, 0x32, 0x20, 0x34, 0x39, 0x20, 0x30, 0x32,
          0x20, 0x36, 0x31, 0x20, 0x63, 0x39, 0x20, 0x37, 0x34]] } := by decide +kernel

/-- V32: a trailer read gives the access byte twice. -/
theorem test_cardRead_trailer : said (exec (.cardRead 0 3 .b keyB) sa) = some [0x00, 0x66, 0x66, 0x20, 0x66, 0x66] := by decide

/-- V38a and V39b. -/
theorem test_cardReadi :
    said (exec (.cardReadi 0 0 .a keyA) sa) = some [0x00, 0xBC, 0x69, 0x37, 0x42, 0x49, 0x02, 0x61, 0xC8, 0x36] := by decide

theorem test_cardReadi_denied : after (exec (.cardReadi 0 0 .a ⟨0, 0, 0, 1⟩) sa) = some { sa with responses := [[0x00]] } := by decide

/-- V40: one byte, nothing else. -/
theorem test_cardWrite :
    after (exec (.cardWrite 0 2 3 .a keyA 0xC3) sa) =
      some { sa with mem := Memory.write sa.mem 21 0xC3, responses := [[0x00, 0x30, 0x34]] } := by decide

/-- V42: the identity block is locked. -/
theorem test_cardWrite_locked : after (exec (.cardWrite 0 0 0 .a keyA 0x11) sa) = some { sa with responses := [[0x00, 0x31, 0x30]] } := by
  decide

/-- V48b: offset 8 of a trailer, address 71. -/
theorem test_cardWriteo :
    after (exec (.cardWriteo 1 3 8 0xFF) sa) = some { sa with mem := Memory.write sa.mem 71 0xFF, responses := [[0x00]] } := by decide

/-- V49c. -/
theorem test_cardWriteo_addr : after (exec (.cardWriteo 0 1 9 0x11) sa) = some { sa with responses := [[0xE5]] } := by decide

/-- V50. -/
theorem test_valInit :
    after (exec (.valInit 1 0x49 ⟨0x02, 0x61, 0xC8, 0x36⟩)
      { prv with draws := [0x11, 0x22, 0x33, 0x44, 0x55, 0x66, 0x77, 0x88, 0x99, 0xAA, 0xBB, 0xCC, 0xDD, 0xEE, 0xF0, 0x0F,
          0xBC, 0x69, 0x37, 0x42, 1] }) = some { val50 with responses := [[0x00]] } := by decide +kernel

/-- V61: a disabled validator draws no index. -/
theorem test_valInit_disabled :
    (after (exec (.valInit 0 0 keyA) { prv with draws := List.range 22 })).map (fun t => (t.valSel, t.valEn, t.draws)) =
      some (0, false, [20, 21]) := by decide +kernel

/-- V53, on SA with sector 0 Key B 55 66 77 88; and V61b. -/
theorem test_valCheck :
    said (exec .valCheck { val50 with
      cardInitd := true, cardDiv := 0x149
      mem := Memory.writeBytes sa.mem (addr 0 3 5) [0x55, 0x66, 0x77, 0x88] }) = some [0x00, 0x01] := by decide +kernel

theorem test_valCheck_disabled : said (exec .valCheck { prv with valInitd := true }) = some [0x00, 0x01] := by decide

/-- V75, V77, V92, V94: the order of the checks (R74). -/
theorem test_check_order :
    said (step (sent .ext [0x99])) = some [0xE0] ∧ said (step (sent .ext [0x10])) = some [0xE2] ∧
    said (step (sent .prv (0x20 :: 0x01 :: List.replicate 27 0))) = some [0xE1] ∧
    said (step (sent .prv [0x30, 0, 0, 2, 0, 0, 0, 0])) = some [0xE1] ∧ said (step (sent .ext [])) = some [0xE1] := by decide

/-- The hook the host uses runs the word's command as the next step. -/
theorem test_withFetchWord : said (step (State.reset.withFetchWord 16 0x4910)) = some [0x00] := by decide

/-! ### The hypotheses of the statements can be met -/

theorem witness_DecodeOfEncode :
    Instr.wf (.cardInit 0xFE 0x49 keyA keyA keyA keyA keyA keyA 0 0) = true ∧ Instr.wf (.valInit 0x01 0 keyA) = true ∧
    Instr.wf (.cardRead 0xFF 0xFF .b keyB) = true := by decide

theorem witness_FramesOfTheSpecDecode : (0xFE : Byte).getLsbD 0 = false := by decide

theorem witness_EncodeOfDecode : decode [0x31, 0x00, 0x00, 0x01, 0, 0, 0, 0] = .ok (.cardReadi 0 0 .b keyA) := rfl

theorem witness_ReservedOpcodeAnswersErrOpcode :
    (sent .ext [0x13]).pending = .frame .ext (0x13 :: []) :: [] ∧
    (0x13 : Byte) ∉ ([0x10, 0x11, 0x12, 0x20, 0x21, 0x30, 0x31, 0x40, 0x41, 0x50, 0x51] : Bytes) ∧
    (sent .prv [0x52, 0]).pending = .frame .prv (0x52 :: [0]) :: [] ∧
    (0x52 : Byte) ∉ ([0x10, 0x11, 0x12, 0x20, 0x21, 0x30, 0x31, 0x40, 0x41, 0x50, 0x51] : Bytes) := by decide

/-- The six shapes, at the smallest illegal value of each field. -/
theorem witness_IllegalShapeAnswersErrFrame_empty : (sent .ext []).pending = .frame .ext [] :: [] := rfl

theorem witness_IllegalShapeAnswersErrFrame_length :
    (sent .ext [0x30]).pending = .frame .ext [0x30] :: [] ∧ [(0x30 : Byte)].head? = some 0x30 ∧ [(0x30 : Byte)].length ≠ 8 ∧
    (sent .prv [0x11, 0]).pending = .frame .prv [0x11, 0] :: [] ∧ [(0x11 : Byte), 0].length ≠ 1 := by decide

theorem witness_IllegalShapeAnswersErrFrame_flags :
    (sent .prv [0x20, 0x01]).pending = .frame .prv (0x20 :: 0x01 :: []) :: [] ∧ (0x01 : Byte).getLsbD 0 = true := by decide

theorem witness_IllegalShapeAnswersErrFrame_vflags :
    (sent .prv [0x50, 0x02]).pending = .frame .prv (0x50 :: 0x02 :: []) :: [] ∧ 1 < (0x02 : Byte).toNat := by decide

theorem witness_IllegalShapeAnswersErrFrame_keyType :
    (sent .prv [0x31, 0, 0, 2]).pending = .frame .prv (0x31 :: 0 :: 0 :: 2 :: []) :: [] ∧
    (sent .ext [0x40, 0, 0, 0, 2]).pending = .frame .ext (0x40 :: 0 :: 0 :: 0 :: 2 :: []) :: [] ∧ 1 < (2 : Byte).toNat := by decide

theorem witness_PrivilegedOpcodeOnExtAnswersErrPriv :
    (sent .ext [0x21]).pending = .frame .ext (0x21 :: []) :: [] ∧
    (0x21 : Byte) ∈ ([0x10, 0x11, 0x12, 0x20, 0x21, 0x31, 0x41, 0x50, 0x51] : Bytes) ∧
    State.reset.port = .ext ∧ Instr.opcode .valCheck ≠ .cardRead ∧ Instr.opcode .valCheck ≠ .cardWrite := by decide

theorem witness_StepRunsDecodedInstruction :
    (sent .prv [0x21]).pending = .frame .prv [0x21] :: [] ∧ decode [0x21] = .ok .cardCheck := ⟨rfl, rfl⟩

theorem witness_IdleStepChangesNothing : sa.pending = [] := rfl

theorem witness_ResetEventClearsTheBlock : ({ sa with pending := [.reset] } : State).pending = .reset :: [] := rfl

theorem witness_CrcInitResult :
    prv.port = .prv ∧ (0x01 : Byte) ≠ 0 ∧ (0xFF : Byte) ≠ 0 ∧ State.reset.port = .ext ∧
    (sent .prv [0x10]).pending = .frame .prv (0x10 :: []) :: [] ∧ ([] : Bytes).length ≠ 1 := by decide

theorem witness_CrcGetdivResult :
    ({ prv with crcDiv := 0x101 } : State).port = .prv ∧ (0x101#9).getLsbD 8 = true ∧
    prv.crcDiv.getLsbD 8 = false ∧ State.reset.port = .ext ∧
    (sent .prv [0x11, 0]).pending = .frame .prv (0x11 :: [0]) :: [] ∧ [(0 : Byte)] ≠ [] := by decide

/-- `MAX_CRC_LEN` bounded at 2: two bytes pass, three do not; unbounded, any length passes. -/
def bounded : State := { prv with crcDiv := 0x149, params := { Config.Params.default with maxCrcLen := some 2 } }

theorem witness_CrcCalcResult_bounded :
    bounded.port = .prv ∧ bounded.crcDiv.getLsbD 8 = true ∧
    (∀ limit, bounded.params.maxCrcLen = some limit → [(1 : Byte), 2].length ≤ limit) ∧
    bounded.params.maxCrcLen = some 2 ∧ 2 < [(1 : Byte), 2, 3].length :=
  ⟨rfl, rfl, fun _ h => by cases h; decide, rfl, by decide⟩

theorem witness_CrcCalcResult_unbounded :
    prv.port = .prv ∧ prv.crcDiv.getLsbD 8 = false ∧ (∀ limit, prv.params.maxCrcLen = some limit → [(1 : Byte)].length ≤ limit) :=
  ⟨rfl, rfl, fun _ h => by cases h⟩

/-- For SerialFormEqualsLongDivision and CrcIsPolynomialRemainder: the smallest key, an odd and an even one. -/
theorem witness_SerialFormEqualsLongDivision_CrcIsPolynomialRemainder : (0x49 : Byte) ≠ 0 ∧ (0x01 : Byte) ≠ 0 ∧ (0x80 : Byte) ≠ 0 := by decide

theorem witness_CrcAlgebra :
    (0x49 : Byte) ≠ 0 ∧ (∀ b ∈ ([0, 0] : Bytes), b = 0x00) ∧ ([0x12, 0x34] : Bytes).length = ([0x0F, 0xF0] : Bytes).length := by decide

theorem witness_OddKeySeesEveryOneByteChange : (0x49 : Byte).getLsbD 0 = true ∧ (0x00 : Byte) ≠ 0x03 := by decide

/-- For CardInitBuildsACard, CardInitIdentity, CardInitManufacturing, CardInitKeys, CardInitDrawCount and FreshCardPassesItsCheck: PRV and
a non-zero key; FLAGS with each bit that a clause asks for, set and clear. -/
theorem witness_CardInit :
    prv.port = .prv ∧ (0x49 : Byte) ≠ 0 ∧ (0xC0 : Byte).getLsbD 6 = true ∧ (0x00 : Byte).getLsbD 6 = false ∧
    (0x08 : Byte).getLsbD 3 = true ∧ (0x20 : Byte).getLsbD 3 = false ∧ (0x20 : Byte).getLsbD 5 = true ∧
    (0x00 : Byte).getLsbD 3 = false ∧ (0x00 : Byte).getLsbD 5 = false := by decide

/-- Two frames that differ in `TYPE`, `KEYS_V` and in every field whose bit is 0. -/
theorem witness_CardInitIgnoresInvalidFields :
    (∀ n, n ≠ 1 → n ≠ 5 → (0x2A : Byte).getLsbD n = (0x08 : Byte).getLsbD n) ∧
    ((0x2A : Byte).getLsbD 6 = true → (0x2A : Byte).getLsbD 1 = (0x08 : Byte).getLsbD 1) ∧
    ((0x2A : Byte).getLsbD 3 = false → (0x2A : Byte).getLsbD 5 = (0x08 : Byte).getLsbD 5) ∧
    ((0x2A : Byte).getLsbD 7 = true → keyA = keyB) ∧ ((0x2A : Byte).getLsbD 6 = true → keyA = keyB) ∧
    ((0x2A : Byte).getLsbD 3 = false → (0x2A : Byte).getLsbD 5 = true → keyA = keyB ∧ keyA = keyB ∧ keyA = keyB ∧ keyA = keyB) ∧
    ((0x2A : Byte).getLsbD 4 = true → (0x12 : Byte) = 0x34 ∧ (0x12 : Byte) = 0x34) := by
  refine ⟨fun n h1 h5 => ?_, by decide, by decide, by decide, by decide, by decide, by decide⟩
  by_cases h : n < 8
  · have : ∀ n < 8, n ≠ 1 → n ≠ 5 → (0x2A : Byte).getLsbD n = (0x08 : Byte).getLsbD n := by decide
    exact this n h h1 h5
  · rw [BitVec.getLsbD_of_ge _ _ (by omega), BitVec.getLsbD_of_ge _ _ (by omega)]

theorem witness_CardCheckResult :
    sa.port = .prv ∧ sa.cardInitd = true ∧ prv.port = .prv ∧ prv.cardInitd = false ∧ State.reset.port = .ext ∧
    (sent .prv [0x21, 0]).pending = .frame .prv (0x21 :: [0]) :: [] ∧ [(0 : Byte)] ≠ [] := by decide

theorem witness_ChainReducesToOwnPayload :
    (sa.cardDiv.setWidth 8 : Byte) ≠ 0 ∧ (2 : Fin 4).val = (1 : Fin 4).val + 1 ∧ (2 : Fin 4) ≠ 3 ∧
    ¬((0 : Fin 2) = 0 ∧ (1 : Fin 4) = 0) ∧ Memory.byte sa.mem 0 1 8 = chainVal sa.cardDiv sa.mem 0 1 ∧
    (1 : Fin 4).val = (0 : Fin 4).val + 1 ∧ Memory.byte sa.mem 1 0 8 = chainVal sa.cardDiv sa.mem 1 0 := by decide +kernel

/-- Byte 8 of the identity block, and byte 7 of the last protected block. -/
theorem witness_OddKeyChainIsSensitive :
    sa.cardDiv.getLsbD 0 = true ∧ chainOk sa.cardDiv sa.mem = true ∧ (0x37 : Byte) ≠ Memory.byte sa.mem 0 0 8 ∧
    (2 : Fin 4) ≠ 3 ∧ (7 : Fin 9) ≠ 8 ∧ (0x80 : Byte) ≠ Memory.byte sa.mem 1 2 7 := by decide +kernel

theorem witness_OneRecomputedChecksumRepairs :
    (sa.cardDiv.setWidth 8 : Byte) ≠ 0 ∧ chainOk sa.cardDiv sa.mem = true ∧ (0 : Fin 4) ≠ 3 ∧ (2 : Fin 4) ≠ 3 := by decide +kernel

/-- A granted data read and trailer write, and a denial by the key alone. -/
theorem witness_AuthorisationConditions :
    sa.auth .read 0 1 .a keyA = some (0, 1) ∧ sa.auth .write 1 3 .b ⟨0xA0, 0xA1, 0xA2, 0xA3⟩ = some (1, 3) ∧
    sa.auth .read 0 1 .a keyB = none := by decide

/-- The first and the last flag bit: `RdA` (7) and `WtB` (0), each clear and set. -/
theorem witness_OneFlagGatesAnAccess :
    sa.cardInitd = true ∧ sa.params.trailerNeedsDataFlag = false ∧ (0 : Byte).toNat = (0 : Fin 2).val ∧
    (3 : Byte).toNat = (3 : Fin 4).val ∧ (Memory.byte (saAccess 0x7F).mem 0 3 4).getLsbD 7 = false ∧
    (Memory.byte (saAccess 0xFE).mem 0 3 4).getLsbD 0 = false ∧ (Memory.byte sa.mem 0 3 4).getLsbD 7 = true ∧
    (Memory.byte sa.mem 0 3 4).getLsbD 0 = true ∧ (7 : Byte).toNat ≤ 7 ∧
    ((0 : Fin 2) = 0 → (3 : Fin 4) = 0 → sa.b0w = true) := by decide

theorem witness_DeniedReadsChangeNothing :
    sa.cardInitd = true ∧ 1 < (2 : Byte).toNat ∧ 3 < (4 : Byte).toNat ∧ sa.auth .read 0 1 .a ⟨0, 0, 0, 1⟩ = none ∧ sa.port = .prv := by
  decide

theorem witness_TrailerReadGivesAccessByteTwice :
    sa.cardInitd = true ∧ sa.auth .read 0 3 .b keyB = some (0, 3) ∧ sa.port = .prv := by decide

theorem witness_AuthoritativeReadGivesStoredBytes :
    sa.port = .prv ∧ sa.cardInitd = true ∧ sa.auth .read 0 2 .a keyA = some (0, 2) ∧ (2 : Fin 4) ≠ 3 := by decide

/-- V30's draws: two flips, then `c = 2`. -/
theorem witness_NoisyReadAppliesTheDrawnFlips :
    ({ sa with draws := [0, 3, 5, 0, 7, 0, 2] } : State).auth .read 0 0 .b keyB = some (0, 0) ∧ (0 : Fin 4) ≠ 3 ∧
    [0, 3, 5, 0, 7, 0, 2] = ([(3, 5), (7, 0)] : List (Fin 8 × Fin 8)).flatMap (fun pq => [0, pq.1.val, pq.2.val]) ++ 2 :: [] := by
  decide

theorem witness_NoisyReadReachesEveryValue :
    sa.cardInitd = true ∧ sa.auth .read 0 0 .b keyB = some (0, 0) ∧ (0 : Fin 4) ≠ 3 ∧ (List.replicate 8 (0xA5 : Byte)).length = 8 := by
  decide

/-- Lists that run out before an iteration (empty, and after V30's first flip), after its `c`, and after its `p`. -/
theorem witness_NoisyReadOnAFreeSource :
    sa.cardInitd = true ∧ sa.auth .read 0 0 .b keyB = some (0, 0) ∧ (0 : Fin 4) ≠ 3 ∧
    sa.draws = ([] : List (Fin 8 × Fin 8)).flatMap (fun pq => [0, pq.1.val, pq.2.val]) ∧
    ({ sa with draws := [0, 3, 5] } : State).draws = ([(3, 5)] : List (Fin 8 × Fin 8)).flatMap (fun pq => [0, pq.1.val, pq.2.val]) ∧
    ({ sa with draws := [0] } : State).draws = ([] : List (Fin 8 × Fin 8)).flatMap (fun pq => [0, pq.1.val, pq.2.val]) ++ [0] ∧
    ({ sa with draws := [0, 3, 5, 0, 7] } : State).draws =
      ([(3, 5)] : List (Fin 8 × Fin 8)).flatMap (fun pq => [0, pq.1.val, pq.2.val]) ++ [0, (7 : Fin 8).val] := by decide

theorem witness_FlipsActByParity : (List.replicate 8 (0xA5 : Byte)).length = 8 := rfl

theorem witness_ParityRecoversByteEight :
    ({ sa with draws := [1, 9] } : State).auth .read 0 1 .a keyA = some (0, 1) ∧ (1 : Fin 4) ≠ 3 ∧
    ({ sa with draws := [1, 9] } : State).draws = 1 :: [9] := by decide

theorem witness_ReadsAreGrantedTogether : sa.port = .prv ∧ sa.cardInitd = true := by decide

theorem witness_HexTextTellsTheOctets : ([0xBC, 0x69] : Bytes) ≠ [] ∧ hexText [0xBC, 0x69] = [0x62, 0x63, 0x20, 0x36, 0x39] := by decide

/-- Storage with another byte 3 of sector 0's Key B, a trailer read by Key A, and the responses there are. -/
theorem witness_ReadsLeakNoKeyByte :
    (∀ (sec : Fin 2) (blk : Fin 4) (i : Fin 9), (blk = 3 → i = 4) →
      Memory.byte (Memory.write sa.mem 35 0x55) sec blk i = Memory.byte sa.mem sec blk i) ∧
    ({ sa with mem := Memory.write sa.mem 35 0x55 } : State).auth .read 0 3 .a keyA = sa.auth .read 0 3 .a keyA ∧
    (∃ t, exec (.cardRead 0 3 .a keyA) sa = .next t) ∧ ∃ t, exec (.cardReadi 0 3 .a keyA) sa = .next t :=
  ⟨by decide +kernel, by decide, ⟨_, rfl⟩, ⟨_, rfl⟩⟩

/-- The highest offset; and the identity block of a card that allows it. -/
theorem witness_AuthorisedWriteStoresOneByte :
    sa.cardInitd = true ∧ sa.auth .write 0 3 .b keyB = some (0, 3) ∧ (7 : Byte).toNat = (7 : Fin 9).val ∧ (7 : Fin 9).val ≤ 7 ∧
    ({ sa with b0w := true } : State).auth .write 0 0 .a keyA = some (0, 0) := by decide

theorem witness_DeniedWriteChangesNothing :
    sa.cardInitd = true ∧ 1 < (2 : Byte).toNat ∧ 3 < (4 : Byte).toNat ∧ 7 < (8 : Byte).toNat ∧
    sa.auth .write 0 1 .a keyB = none ∧ sa.b0w = false := by decide

theorem witness_OverrideWriteStoresOneByte :
    sa.port = .prv ∧ sa.cardInitd = true ∧ (1 : Byte).toNat = (1 : Fin 2).val ∧ (3 : Byte).toNat = (3 : Fin 4).val ∧
    (8 : Byte).toNat = (8 : Fin 9).val := by decide

theorem witness_OnlyOverrideWriteAnswersErrAddr :
    sa.port = .prv ∧ sa.cardInitd = true ∧ 1 < (2 : Byte).toNat ∧ 3 < (4 : Byte).toNat ∧ 7 < (8 : Byte).toNat ∧ 8 < (9 : Byte).toNat ∧
    Instr.opcode (.cardRead 0 3 .a keyA) ≠ .cardWriteo ∧ (after (exec (.cardRead 0 3 .a keyA) sa)).isSome := by decide

/-- V49c as a step: the frame that is answered `E5`. -/
theorem witness_OnlyOverrideWriteAnswersErrAddr_step :
    ∃ t, step (saSent .prv [0x41, 0, 1, 9, 0x11]) = .next t ∧
      t.responses = (saSent .prv [0x41, 0, 1, 9, 0x11]).responses ++ [0xE5 :: []] := ⟨_, rfl, rfl⟩

theorem witness_UninitialisedUnitAnswersErrNotInit :
    prv.port = .prv ∧ prv.crcDiv.getLsbD 8 = false ∧ prv.params.maxCrcLen = none ∧ State.reset.cardInitd = false ∧
    prv.cardInitd = false ∧ prv.valInitd = false ∧ val50.port = .prv ∧ val50.valEn = true ∧ val50.cardInitd = false := by decide

theorem witness_ZeroKeyAnswersErrInvalidKey : prv.port = .prv ∧ ∃ t, exec (.valInit 0 0 keyA) State.reset = .next t :=
  ⟨rfl, ⟨_, rfl⟩⟩

theorem witness_ValInitBuildsAValidator : prv.port = .prv ∧ (1 : Byte).getLsbD 0 = true ∧ (0 : Byte).getLsbD 0 = false := by decide

theorem witness_ValCheckCertifies :
    ({ prv with valInitd := true } : State).port = .prv ∧ ({ prv with valInitd := true } : State).valEn = false ∧
    val50.port = .prv ∧ val50.valInitd = true ∧ val50.valEn = true ∧ ({ val50 with cardInitd := true } : State).cardInitd = true := by
  decide

/-- A card, and a frame that writes a byte of it. -/
theorem witness_EveryStepKeepsTheInvariant :
    State.Inv (saSent .ext [0x40, 0, 2, 3, 0, 0, 0, 0, 0, 0xC3]) ∧
    (after (step (saSent .ext [0x40, 0, 2, 3, 0, 0, 0, 0, 0, 0xC3]))).isSome :=
  ⟨⟨by decide +kernel, by decide, by decide, by decide, by decide, by decide, by decide⟩, by decide +kernel⟩

theorem witness_ExtCannotReachProtectedState :
    (after (step (saSent .ext [0x40, 0, 2, 3, 0, 0, 0, 0, 0, 0xC3]))).isSome ∧
    (saSent .ext [0x40, 0, 2, 3, 0, 0, 0, 0, 0, 0xC3]).b0w = false := by decide +kernel

theorem witness_HardFailuresAreClean :
    ∃ t, step (sent .prv [0x21]) = .next t ∧ t.responses = (sent .prv [0x21]).responses ++ [0xE4 :: []] ∧ (0xE4 : Byte) ≠ 0x00 :=
  ⟨_, rfl, rfl, by decide⟩

theorem witness_EveryFrameGetsOneResponse : ∃ t, step (sent .prv [0x21]) = .next t := ⟨_, rfl⟩

theorem witness_StateIsWrittenOnlyByItsCommands :
    (after (exec .cardCheck sa)).isSome ∧ Instr.opcode .cardCheck ≠ .crcInit ∧ Instr.opcode .cardCheck ≠ .cardInit ∧
    Instr.opcode .cardCheck ≠ .cardWrite ∧ Instr.opcode .cardCheck ≠ .cardWriteo ∧ Instr.opcode .cardCheck ≠ .valInit ∧
    Instr.opcode .cardCheck ≠ .cardRead := by decide +kernel

theorem witness_CanonicalStorageIsUnique : Memory.wf sa.mem ∧ Memory.wf ([] : Memory) := ⟨by decide, Memory.wf_nil⟩

end Sys2Proof.Tests
end

section
/-! PROOF. One event from outside: a frame that decodes (00_scope.md R8). -/

namespace Sys2Proof.Machine

/-- A frame that is a command is taken off the events, its port is latched, and the command runs (R8, R61). -/
theorem step_frame_of_decode_ok {s : State} {src : Port} {f : Bytes} {rest : List Event} {i : Instr}
    (hpending : s.pending = .frame src f :: rest) (hdecode : decode f = .ok i) :
    step s = exec i (s.accept src rest) := by
  simp only [step, hpending, hdecode]

/-- Settles O7: taking the frame latches the port and shortens the list of events, and writes no other field. -/
theorem stepRunsDecodedInstruction : Obligations.StepRunsDecodedInstruction := by
  intro s src f rest i hpending hdecode
  have haccept : s.accept src rest = { s with port := src, pending := rest } := rfl
  rw [step_frame_of_decode_ok hpending hdecode, haccept]

end Sys2Proof.Machine
end

section
/-! PROOF. Storage in canonical form is determined by what it reads as (10_state.md R19, 20_memory.md R36). -/

namespace Sys2Proof.Machine

/-- Every flat address inside the 72 bytes names a byte of some block (R36). -/
theorem exists_addr_eq {a : Nat} (h : a < memBytes) : ∃ s b i, addr s b i = a := by
  unfold memBytes at h
  refine ⟨⟨a / 36, by omega⟩, ⟨a % 36 / 9, by omega⟩, ⟨a % 9, by omega⟩, ?_⟩
  simp only [addr]
  omega

/-- With rising addresses no earlier entry hides a later one. -/
theorem Memory.read_of_mem {m : Memory} (h : m.Pairwise (fun c d => c.1 < d.1)) {c : Host.Cell} (hc : c ∈ m) :
    Memory.read m c.1 = c.2 := by
  induction m with
  | nil => cases hc
  | cons d m ih =>
    rw [List.pairwise_cons] at h
    obtain ⟨hlt, hrest⟩ := h
    rcases List.mem_cons.mp hc with rfl | hc
    · simp [Memory.read]
    · have hne : d.1 ≠ c.1 := (hlt c hc).ne
      simp [Memory.read, hne, ih hrest hc]

/-- A byte that does not read as an unlisted one has an entry. -/
theorem Memory.mem_of_read_ne_unlisted {m : Memory} {a : Nat} (h : Memory.read m a ≠ unlisted) : (a, Memory.read m a) ∈ m := by
  induction m with
  | nil => exact absurd (Memory.read_nil a) h
  | cons d m ih =>
    by_cases hd : d.1 = a
    · simp [Memory.read, ← hd]
    · simp only [Memory.read, hd, if_false] at h ⊢
      exact List.mem_cons_of_mem d (ih h)

/-- The entries of a storage in canonical form, said by what it reads as. -/
theorem Memory.mem_iff_read {m : Memory} (h : Memory.wf m) {c : Host.Cell} :
    c ∈ m ↔ c.1 < memBytes ∧ c.2 ≠ unlisted ∧ Memory.read m c.1 = c.2 := by
  obtain ⟨hrising, hentry⟩ := h
  constructor
  · intro hc
    obtain ⟨hlt, hne⟩ := hentry c hc
    exact ⟨hlt, hne, Memory.read_of_mem hrising hc⟩
  · rintro ⟨_, hne, hread⟩
    rw [← hread] at hne
    simpa [hread] using Memory.mem_of_read_ne_unlisted hne

theorem Memory.nodup_of_rising {m : Memory} (h : m.Pairwise (fun c d => c.1 < d.1)) : m.Nodup :=
  h.imp fun hlt => by rintro rfl; exact Nat.lt_irrefl _ hlt

/-- Two lists with rising addresses and the same entries are the same list. -/
theorem Memory.eq_of_rising_of_mem_iff {m m' : Memory} (h : m.Pairwise (fun c d => c.1 < d.1))
    (h' : m'.Pairwise (fun c d => c.1 < d.1)) (hmem : ∀ c, c ∈ m ↔ c ∈ m') : m = m' := by
  have hperm : m.Perm m' := (List.perm_ext_iff_of_nodup (Memory.nodup_of_rising h) (Memory.nodup_of_rising h')).mpr hmem
  exact hperm.eq_of_pairwise (fun _ _ _ _ hlt hgt => absurd hlt (Nat.lt_asymm hgt)) h h'

/-- Settles O58: the 72 bytes fix the entries, and the rising addresses fix their order. -/
theorem canonicalStorageIsUnique : Obligations.CanonicalStorageIsUnique := by
  intro m m' h h' hbyte
  have hread : ∀ a < memBytes, Memory.read m a = Memory.read m' a := by
    intro a ha
    obtain ⟨sec, blk, i, rfl⟩ := exists_addr_eq ha
    exact hbyte sec blk i
  refine Memory.eq_of_rising_of_mem_iff h.1 h'.1 fun c => ?_
  rw [Memory.mem_iff_read h, Memory.mem_iff_read h']
  exact and_congr_right fun ha => by rw [hread c.1 ha]

end Sys2Proof.Machine
end

section
/-! PROOF. One event from outside, whatever it is; and the registers each command leaves alone (10_state.md R15, R33(d)). -/

namespace Sys2Proof.Machine

theorem step_of_pending_nil {s : State} (h : s.pending = []) : step s = .next s := by
  simp only [step, h]

theorem step_of_pending_reset {s : State} {rest : List Event} (h : s.pending = .reset :: rest) :
    step s = .next (s.applyReset rest) := by
  simp only [step, h]

/-- What a step that answers `next t` can be: an idle one, a reset, or one effect of a command on the state that took the frame. -/
theorem step_cases {s t : State} (h : step s = .next t) :
    (s.pending = [] ∧ t = s) ∨
    (∃ rest, s.pending = .reset :: rest ∧ t = s.applyReset rest) ∨
    (∃ src f rest i, s.pending = .frame src f :: rest ∧ Effect i (s.accept src rest) t) := by
  cases hp : s.pending with
  | nil =>
    rw [step_of_pending_nil hp] at h
    cases h; exact .inl ⟨rfl, rfl⟩
  | cons event rest =>
    cases event with
    | reset =>
      rw [step_of_pending_reset hp] at h
      cases h; exact .inr (.inl ⟨rest, rfl, rfl⟩)
    | frame src f =>
      obtain ⟨i, effect⟩ := step_frame_effect hp h
      exact .inr (.inr ⟨src, f, rest, i, rfl, effect⟩)

/-- Settles O8: with no event there is nothing to decode and nothing to reset. -/
theorem idleStepChangesNothing : Obligations.IdleStepChangesNothing :=
  fun _ h => step_of_pending_nil h

/-- Settles O56: by the effects a command can have. A response alone writes no register; each other effect belongs to one opcode, and
writes only what that opcode's clause leaves out. -/
theorem stateIsWrittenOnlyByItsCommands : Obligations.StateIsWrittenOnlyByItsCommands := by
  intro i s t h
  cases exec_effect h with
  | failed code hcode haddr ht => subst ht; simp
  | answered payload ht => subst ht; simp
  | crcInit k hi hp hk ht => subst ht; simp [hi]
  | cardInit flags crcKey id mfg keys ac0 ac1 hi hp hk ht => subst ht; simp [hi, State.buildCard_eq]
  | noisy draws drawn payload hi ht => subst ht; simp [hi]
  | cardWrite sec blk off v hi hc hoff hlock ht => subst ht; simp [hi]
  | cardWriteo sec blk off v hi hp hc ht => subst ht; simp [hi]
  | valInit vflags vk vmfg hi hp ht => subst ht; simp [hi, State.buildValidator_eq]

end Sys2Proof.Machine
end

section
/-! PROOF. The reset values and the invariant of the block (10_state.md R33, R34): one lemma for each update of the state, then
every effect of a command, then every step. -/

namespace Sys2Proof.Machine

/-! ### Reset -/

/-- Every byte of the reset storage reads as an unlisted one. -/
theorem State.reset_byte (s : Fin 2) (b : Fin 4) (i : Fin 9) : Memory.byte State.reset.mem s b i = 0x00 :=
  Memory.read_nil (addr s b i)

/-- Settles O9: the registers are the literals of `State.reset`, the storage bytes are unlisted. -/
theorem resetValues : Obligations.ResetValues :=
  ⟨rfl, rfl, rfl, State.reset_byte, rfl, rfl, rfl, rfl, rfl, rfl, rfl, rfl, rfl⟩

/-- Settles O51: no unit exists, and each clause about a missing unit asks for its reset values. -/
theorem resetKeepsTheInvariant : Obligations.ResetKeepsTheInvariant where
  memWf := Memory.wf_nil
  crcDivLegal := .inl rfl
  cardDivLegal := .inl rfl
  cardDivSet := fun h => nomatch h
  noCard := fun _ => ⟨rfl, rfl, rfl, rfl⟩
  noValidator := fun _ => ⟨rfl, rfl, rfl, rfl, rfl⟩
  disabledSel := fun _ => rfl

/-! ### One lemma for each update -/

/-- The divisor of a non-zero key is legal (R16, R17). -/
theorem divisorLegal_divisorOf {k : Byte} (hk : k ≠ 0) : divisorLegal (divisorOf k) :=
  .inr ⟨divisorOf_exists k, by rwa [divisorKey_divisorOf]⟩

namespace State.Inv

variable {s : State}

/-- The invariant speaks of the thirteen pieces of R15 only: the ports and the free values may change. -/
theorem congr_outside (h : s.Inv) (port : Port) (pending : List Event) (responses : List Bytes) (draws : List Nat)
    (drawn unspecs : Nat) :
    State.Inv { s with port := port, pending := pending, responses := responses, draws := draws, drawn := drawn, unspecs := unspecs } :=
  ⟨h.memWf, h.crcDivLegal, h.cardDivLegal, h.cardDivSet, h.noCard, h.noValidator, h.disabledSel⟩

theorem answered (h : s.Inv) (frame : Bytes) : (s.answered frame).Inv := h.congr_outside _ _ _ _ _ _

theorem accept (h : s.Inv) (src : Port) (rest : List Event) : (s.accept src rest).Inv := h.congr_outside _ _ _ _ _ _

/-- A reset event leaves the registers and storage of the reset state (R170). -/
theorem applyReset (s : State) (rest : List Event) : (s.applyReset rest).Inv :=
  let h := resetKeepsTheInvariant
  ⟨h.memWf, h.crcDivLegal, h.cardDivLegal, h.cardDivSet, h.noCard, h.noValidator, h.disabledSel⟩

theorem setCrcDiv (h : s.Inv) {k : Byte} (hk : k ≠ 0) : State.Inv { s with crcDiv := divisorOf k } :=
  { h with crcDivLegal := divisorLegal_divisorOf hk }

/-- A store into the storage of a card keeps its canonical form. -/
theorem storeByte (h : s.Inv) (hc : s.cardInitd = true) (sec : Fin 2) (blk : Fin 4) (off : Fin 9) (v : Byte) :
    (s.storeByte sec blk off v).Inv :=
  { h with
    memWf := Memory.write_wf v h.memWf (addr_lt sec blk off)
    noCard := fun hno => absurd (hc.symm.trans hno) (by decide) }

/-- CARD_INIT writes all of the card and none of the other units. -/
theorem buildCard (h : s.Inv) (flags : Byte) {crcKey : Byte} (hk : crcKey ≠ 0) (id mfg : Quad) (keys : KeyTable) (ac0 ac1 : Byte) :
    (s.buildCard flags crcKey id mfg keys ac0 ac1).Inv := by
  have hwf := s.buildCard_wf flags crcKey id mfg keys ac0 ac1
  rw [State.buildCard_eq] at hwf ⊢
  exact {
    memWf := hwf
    crcDivLegal := h.crcDivLegal
    cardDivLegal := divisorLegal_divisorOf hk
    cardDivSet := fun _ => by rwa [divisorKey_divisorOf]
    noCard := fun hno => nomatch hno
    noValidator := h.noValidator
    disabledSel := h.disabledSel }

/-- VAL_INIT writes all of the validator and none of the other units; disabled, its key index is 0 (R140, D32). -/
theorem buildValidator (h : s.Inv) (vflags vk : Byte) (vmfg : Quad) : (s.buildValidator vflags vk vmfg).Inv := by
  rw [State.buildValidator_eq]
  exact {
    memWf := h.memWf
    crcDivLegal := h.crcDivLegal
    cardDivLegal := h.cardDivLegal
    cardDivSet := h.cardDivSet
    noCard := h.noCard
    noValidator := fun hno => nomatch hno
    disabledSel := fun (hoff : flagValEn vflags = false) => by simp [hoff] }

end State.Inv

/-! ### Every effect, every step -/

/-- Whatever a command does keeps the invariant. -/
theorem Effect.keeps_inv {i : Instr} {s t : State} (effect : Effect i s t) (h : s.Inv) : t.Inv := by
  cases effect with
  | failed code _ _ ht => subst ht; exact h.answered _
  | answered payload ht => subst ht; exact h.answered _
  | crcInit k _ _ hk ht => subst ht; exact (h.setCrcDiv hk).answered _
  | cardInit flags crcKey id mfg keys ac0 ac1 _ _ hk ht => subst ht; exact (h.buildCard flags hk id mfg keys ac0 ac1).answered _
  | noisy draws drawn payload _ ht => subst ht; exact h.congr_outside _ _ _ _ _ _
  | cardWrite sec blk off v _ hc _ _ ht => subst ht; exact (h.storeByte hc sec blk off v).answered _
  | cardWriteo sec blk off v _ _ hc ht => subst ht; exact (h.storeByte hc sec blk off v).answered _
  | valInit vflags vk vmfg _ _ ht => subst ht; exact (h.buildValidator vflags vk vmfg).answered _

/-- Settles O52: by what a step can be, a frame through the effect of its command. -/
theorem everyStepKeepsTheInvariant : Obligations.EveryStepKeepsTheInvariant := by
  intro s t hinv h
  rcases step_cases h with ⟨_, rfl⟩ | ⟨rest, _, rfl⟩ | ⟨src, _, rest, _, _, effect⟩
  · exact hinv
  · exact State.Inv.applyReset s rest
  · exact effect.keeps_inv (hinv.accept src rest)

end Sys2Proof.Machine
end

section
/-! PROOF. Authorisation in the terms of the access byte and the trailer's key bytes (20_memory.md R48 to R52), and the reads as
functions of the bytes that are no key bytes (R54). -/

namespace Sys2Proof.Machine

/-! ### The conditions of `AUTH` -/

/-- Which flags an access needs: a data block its data flag, a trailer its trailer flag and, with `TRAILER_NEEDS_DATA_FLAG`, the data flag
as well (R50). -/
theorem flagsOk_eq_true {p : Config.Params} {ac : Byte} {blk : Fin 4} {op : AccessOp} {kt : KeyType} :
    flagsOk p ac blk op kt = true ↔
      (blk ≠ 3 → accessFlag ac op kt false = true) ∧
      (blk = 3 → accessFlag ac op kt true = true ∧ (p.trailerNeedsDataFlag = true → accessFlag ac op kt false = true)) := by
  unfold flagsOk
  by_cases hblk : blk = 3
  · cases hp : p.trailerNeedsDataFlag <;> simp [hblk]
  · simp [hblk]

theorem State.authorised_eq_true {s : State} {op : AccessOp} {sec : Fin 2} {blk : Fin 4} {kt : KeyType} {key : Quad} :
    s.authorised op sec blk kt key = true ↔
      flagsOk s.params (Memory.access s.mem sec) blk op kt = true ∧ key = Memory.key s.mem sec kt := by
  simp [State.authorised]

/-- Settles O30: range, flags and key are the three conditions of `AUTH`; for each operation and key type the gating flags and the
stored key are, by computation, the bits and bytes the statement writes out. -/
theorem authorisationConditions : Obligations.AuthorisationConditions := by
  intro s op ss bb kt key sec blk
  have conditions := State.auth_eq_some (s := s) (op := op) (ss := ss) (bb := bb) (kt := kt) (key := key) (sec := sec) (blk := blk)
  rw [State.authorised_eq_true, flagsOk_eq_true, and_assoc] at conditions
  cases op <;> cases kt <;> exact conditions

/-! ### A command over other storage -/

/-- A result with the storage of its next state replaced. -/
def Result.withMem (m : Memory) : Result → Result
  | .next t => .next { t with mem := m }
  | .fault r => .fault r
  | .refused r => .refused r

section
variable (s : State) (m : Memory)

/-- Neither a response nor a check before a meaning looks at storage (R18, R61, R74). -/
theorem State.answer_withMem (payload : Bytes) :
    State.answer { s with mem := m } payload = Result.withMem m (s.answer payload) := rfl

theorem State.needCard_withMem (act : Result) :
    State.needCard { s with mem := m } (Result.withMem m act) = Result.withMem m (s.needCard act) :=
  (apply_ite (Result.withMem m) (s.cardInitd = true) act (s.fail .notInit)).symm

theorem State.privileged_withMem (act : Result) :
    State.privileged { s with mem := m } (Result.withMem m act) = Result.withMem m (s.privileged act) :=
  (apply_ite (Result.withMem m) (s.port = .prv) act (s.fail .priv)).symm

end

/-! ### The reads use no key byte -/

/-- Two storages that differ at most in the key bytes of the trailers. -/
def Memory.EqOffKeys (m m' : Memory) : Prop :=
  ∀ (sec : Fin 2) (blk : Fin 4) (i : Fin 9), (blk = 3 → i = 4) → Memory.byte m sec blk i = Memory.byte m' sec blk i

theorem Memory.EqOffKeys.access {m m' : Memory} (h : Memory.EqOffKeys m m') (sec : Fin 2) :
    Memory.access m sec = Memory.access m' sec :=
  h sec 3 4 fun _ => rfl

/-- A data block holds no key byte (R42). -/
theorem Memory.EqOffKeys.block {m m' : Memory} (h : Memory.EqOffKeys m m') (sec : Fin 2) {blk : Fin 4} (hblk : blk ≠ 3) :
    Memory.block m sec blk = Memory.block m' sec blk :=
  Memory.block_congr fun i => h sec blk i fun htrailer => absurd htrailer hblk

section
variable {s : State} {m : Memory} {ss bb : Byte} {kt : KeyType} {key : Quad}

/-- The noisy read takes nothing from storage but the block it reads (R121 to R123). -/
theorem State.noisyRead_withMem {sec : Fin 2} {blk : Fin 4} (hblock : Memory.block m sec blk = Memory.block s.mem sec blk) :
    State.noisyRead { s with mem := m } sec blk = Result.withMem m (s.noisyRead sec blk) := by
  simp only [State.noisyRead, hblock]
  cases corrupt s.draws s.drawn ((Memory.block s.mem sec blk).take 8) with
  | none => rfl
  | some r => rfl

/-- Authorised alike, CARD_READ does the same over both storages (R120). -/
theorem execCardRead_withMem (hmem : Memory.EqOffKeys m s.mem)
    (hauth : State.auth { s with mem := m } .read ss bb kt key = s.auth .read ss bb kt key) :
    execCardRead ss bb kt key { s with mem := m } = Result.withMem m (execCardRead ss bb kt key s) := by
  unfold execCardRead
  rw [hauth, ← State.needCard_withMem]
  congr 1
  cases s.auth .read ss bb kt key with
  | none => exact State.answer_withMem s m _
  | some target =>
    obtain ⟨sec, blk⟩ := target
    by_cases hblk : blk = 3
    · simp only [hblk, if_true, hmem.access, State.answer_withMem]
    · simp only [hblk, if_false, State.noisyRead_withMem (hmem.block sec hblk)]

/-- Authorised alike, the authoritative read answers the same bytes (R124). -/
theorem State.authoritativeRead_withMem (hmem : Memory.EqOffKeys m s.mem)
    (hauth : State.auth { s with mem := m } .read ss bb kt key = s.auth .read ss bb kt key) :
    State.authoritativeRead { s with mem := m } ss bb kt key = s.authoritativeRead ss bb kt key := by
  unfold State.authoritativeRead
  rw [hauth]
  cases s.auth .read ss bb kt key with
  | none => rfl
  | some target =>
    obtain ⟨sec, blk⟩ := target
    by_cases hblk : blk = 3
    · simp only [hblk, if_true, hmem.access]
    · simp only [hblk, if_false, hmem.block sec hblk]

theorem execCardReadi_withMem (hmem : Memory.EqOffKeys m s.mem)
    (hauth : State.auth { s with mem := m } .read ss bb kt key = s.auth .read ss bb kt key) :
    execCardReadi ss bb kt key { s with mem := m } = Result.withMem m (execCardReadi ss bb kt key s) := by
  unfold execCardReadi
  rw [State.authoritativeRead_withMem hmem hauth, State.answer_withMem, State.needCard_withMem, State.privileged_withMem]

end

/-- Settles O42: each read gives the same result over both storages, so the same next state but for the storage itself. -/
theorem readsLeakNoKeyByte : Obligations.ReadsLeakNoKeyByte := by
  intro s m ss bb kt key hmem hauth
  constructor
  · intro t (ht : execCardRead ss bb kt key s = .next t)
    exact (execCardRead_withMem hmem hauth).trans (congrArg (Result.withMem m) ht)
  · intro t (ht : execCardReadi ss bb kt key s = .next t)
    exact (execCardReadi_withMem hmem hauth).trans (congrArg (Result.withMem m) ht)

end Sys2Proof.Machine
end

section
/-! PROOF. The encoding of command frames read both ways (30_encoding.md R64 to R74): one lemma for each operand format, then one
equivalence for every frame. -/

namespace Sys2Proof

/-! ### The operands of each format -/

/-- `i` is the well-formed command with this opcode and these bytes after it. -/
structure Instr.StandsFor (i : Instr) (op : Opcode) (rest : Bytes) : Prop where
  opcode : i.opcode = op
  operands : i.operandBytes = rest
  wf : i.wf = true

section
variable {rest : Bytes} {i : Instr}

theorem decodeFK_standsFor (h : decodeFK rest = some i) : i.StandsFor .crcInit rest := by
  unfold decodeFK at h
  split at h
  · cases h; exact ⟨rfl, rfl, rfl⟩
  · cases h

/-- The three formats without operands differ in the command only. -/
theorem decodeF0_eq_some {j : Instr} (h : decodeF0 j rest = some i) : rest = [] ∧ i = j := by
  unfold decodeF0 at h
  split at h
  · cases h; exact ⟨rfl, rfl⟩
  · cases h

/-- FLAGS bit 0 of a frame that decodes is 0 (R70). -/
theorem decodeFI_standsFor (h : decodeFI rest = some i) : i.StandsFor .cardInit rest := by
  unfold decodeFI at h
  split at h
  · split at h
    · cases h
    · next hflag => cases h; exact ⟨rfl, rfl, by simpa [Instr.wf] using hflag⟩
  · cases h

/-- The two reads share their format; the key type of a frame that decodes has one `KT` byte (R68). -/
theorem decodeFA_eq_some {make : Byte → Byte → KeyType → Quad → Instr} (h : decodeFA make rest = some i) :
    ∃ ss bb kt key, rest = [ss, bb, encodeKeyType kt] ++ key.toList ∧ i = make ss bb kt key := by
  unfold decodeFA at h
  split at h
  · obtain ⟨kt, hkt, rfl⟩ := Option.map_eq_some_iff.mp h
    rw [decodeKeyType_eq_some.mp hkt]
    exact ⟨_, _, kt, _, rfl, rfl⟩
  · cases h

theorem decodeFW_standsFor (h : decodeFW rest = some i) : i.StandsFor .cardWrite rest := by
  unfold decodeFW at h
  split at h
  · obtain ⟨kt, hkt, rfl⟩ := Option.map_eq_some_iff.mp h
    rw [decodeKeyType_eq_some.mp hkt]
    exact ⟨rfl, rfl, rfl⟩
  · cases h

theorem decodeFO_standsFor (h : decodeFO rest = some i) : i.StandsFor .cardWriteo rest := by
  unfold decodeFO at h
  split at h
  · cases h; exact ⟨rfl, rfl, rfl⟩
  · cases h

/-- VFLAGS bits 7 to 1 of a frame that decodes are 0 (R71). -/
theorem decodeFV_standsFor (h : decodeFV rest = some i) : i.StandsFor .valInit rest := by
  unfold decodeFV at h
  split at h
  · split at h
    · next hflags => cases h; exact ⟨rfl, rfl, by simpa [Instr.wf] using hflags⟩
    · cases h
  · cases h

/-! ### Every command, every frame -/

/-- The operand decoder loses no bit and lets no reserved bit pass. -/
theorem decodeOperands_standsFor {op : Opcode} (h : decodeOperands op rest = some i) : i.StandsFor op rest := by
  cases op with
  | crcInit => exact decodeFK_standsFor h
  | crcGetdiv => obtain ⟨rfl, rfl⟩ := decodeF0_eq_some h; exact ⟨rfl, rfl, rfl⟩
  | crcCalc => cases h; exact ⟨rfl, rfl, rfl⟩
  | cardInit => exact decodeFI_standsFor h
  | cardCheck => obtain ⟨rfl, rfl⟩ := decodeF0_eq_some h; exact ⟨rfl, rfl, rfl⟩
  | cardRead => obtain ⟨ss, bb, kt, key, rfl, rfl⟩ := decodeFA_eq_some h; exact ⟨rfl, rfl, rfl⟩
  | cardReadi => obtain ⟨ss, bb, kt, key, rfl, rfl⟩ := decodeFA_eq_some h; exact ⟨rfl, rfl, rfl⟩
  | cardWrite => exact decodeFW_standsFor h
  | cardWriteo => exact decodeFO_standsFor h
  | valInit => exact decodeFV_standsFor h
  | valCheck => obtain ⟨rfl, rfl⟩ := decodeF0_eq_some h; exact ⟨rfl, rfl, rfl⟩

/-- The operand decoder reads back the operand bytes of a well-formed command; `wf` is used for the two flag bytes alone. -/
theorem decodeOperands_operandBytes (h : i.wf = true) : decodeOperands i.opcode i.operandBytes = some i := by
  cases i with
  | crcInit k => rfl
  | crcGetdiv => rfl
  | crcCalc data => rfl
  | cardInit flags crcKey id mfg s0ka s0kb s1ka s1kb ac0 ac1 =>
    have hflag : ¬flags.getLsbD 0 = true := by simpa [Instr.wf] using h
    exact if_neg hflag
  | cardCheck => rfl
  | cardRead ss bb kt key => cases kt <;> rfl
  | cardReadi ss bb kt key => cases kt <;> rfl
  | cardWrite ss bb oo kt key dd => cases kt <;> rfl
  | cardWriteo ss bb oo dd => rfl
  | valInit vflags vk vmfg => exact if_pos (beq_iff_eq.mp h)
  | valCheck => rfl

/-- A frame decodes to a command exactly when it is the encoding of that command and the command is well-formed. -/
theorem decode_eq_ok {f : Bytes} : decode f = .ok i ↔ encode i = f ∧ i.wf = true := by
  constructor
  · intro h
    unfold decode at h
    split at h
    · cases h
    · split at h
      · cases h
      · next op hop =>
        split at h
        · cases h
        · next hoperands =>
          cases h
          obtain ⟨rfl, rfl, hwf⟩ := decodeOperands_standsFor hoperands
          rw [Opcode.ofByte_eq_some.mp hop]
          exact ⟨rfl, hwf⟩
  · rintro ⟨rfl, hwf⟩
    rw [encode, decode_opcode, decodeOperands_operandBytes hwf]

end

/-! ### The round trips and the spec's frames -/

/-- Settles O1: the encoding of a well-formed command is a frame that decodes to it. -/
theorem decodeOfEncode : Obligations.DecodeOfEncode :=
  fun _ hwf => decode_eq_ok.mpr ⟨rfl, hwf⟩

/-- Settles O2: a frame that decodes is the encoding of its command. -/
theorem encodeOfDecode : Obligations.EncodeOfDecode :=
  fun _ _ h => decode_eq_ok.mp h

/-- Settles O3: each frame is, by computation, the encoding of its command, and the command is well-formed. -/
theorem framesOfTheSpecDecode : Obligations.FramesOfTheSpecDecode := by
  refine ⟨?crcInit, ?crcGetdiv, ?crcCalc, ?cardInit, ?cardCheck, ?reads, ?cardWrite, ?cardWriteo, ?valInit, ?valCheck, ?vectors⟩
  case crcInit => exact fun k => decode_eq_ok.mpr ⟨rfl, rfl⟩
  case crcGetdiv => exact decode_eq_ok.mpr ⟨rfl, rfl⟩
  case crcCalc => exact fun data => decode_eq_ok.mpr ⟨rfl, rfl⟩
  case cardInit =>
    intros
    next hflag => exact decode_eq_ok.mpr ⟨rfl, by rw [Instr.wf, hflag, Bool.not_false]⟩
  case cardCheck => exact decode_eq_ok.mpr ⟨rfl, rfl⟩
  case reads =>
    intro ss bb k0 k1 k2 k3
    refine ⟨?_, ?_, ?_, ?_⟩ <;> exact decode_eq_ok.mpr ⟨rfl, rfl⟩
  case cardWrite =>
    intro ss bb oo k0 k1 k2 k3 dd
    constructor <;> exact decode_eq_ok.mpr ⟨rfl, rfl⟩
  case cardWriteo => exact fun ss bb oo dd => decode_eq_ok.mpr ⟨rfl, rfl⟩
  case valInit =>
    intro vk m0 m1 m2 m3
    constructor <;> exact decode_eq_ok.mpr ⟨rfl, rfl⟩
  case valCheck => exact decode_eq_ok.mpr ⟨rfl, rfl⟩
  case vectors => refine ⟨?_, ?_, ?_, ?_, ?_, ?_, ?_, ?_⟩ <;> exact decode_eq_ok.mpr ⟨rfl, rfl⟩

end Sys2Proof
end

section
/-! PROOF. One response frame for every frame that is answered (30_encoding.md R61 to R63). -/

namespace Sys2Proof.Machine

/-- Whatever a command does, it adds one response frame whose status is one of R63's table. -/
theorem Effect.one_response {i : Instr} {s t : State} (effect : Effect i s t) :
    ∃ (status : Byte) (payload : Bytes), t.responses = s.responses ++ [status :: payload] ∧
      status ∈ ([0x00, 0xE0, 0xE1, 0xE2, 0xE3, 0xE4, 0xE5] : Bytes) := by
  have hok : statusOk ∈ ([0x00, 0xE0, 0xE1, 0xE2, 0xE3, 0xE4, 0xE5] : Bytes) := List.mem_cons_self
  cases effect with
  | failed code hcode _ ht => subst ht; exact ⟨code, [], rfl, List.mem_cons_of_mem _ hcode⟩
  | answered payload ht => subst ht; exact ⟨statusOk, payload, rfl, hok⟩
  | crcInit k _ _ _ ht => subst ht; exact ⟨statusOk, [], rfl, hok⟩
  | cardInit flags crcKey id mfg keys ac0 ac1 _ _ _ ht =>
    subst ht; exact ⟨statusOk, [], by simp [State.buildCard_eq], hok⟩
  | noisy draws drawn payload _ ht => subst ht; exact ⟨statusOk, payload, rfl, hok⟩
  | cardWrite sec blk off v _ _ _ _ ht => subst ht; exact ⟨statusOk, tokenAck, rfl, hok⟩
  | cardWriteo sec blk off v _ _ _ ht => subst ht; exact ⟨statusOk, [], rfl, hok⟩
  | valInit vflags vk vmfg _ _ ht =>
    subst ht; exact ⟨statusOk, [], by simp [State.buildValidator_eq], hok⟩

/-- Settles O55: taking a frame adds no response, and the command it runs, or its rejection, adds one. -/
theorem everyFrameGetsOneResponse : Obligations.EveryFrameGetsOneResponse := by
  intro s t src f rest hpending hstep
  obtain ⟨i, effect⟩ := step_frame_effect hpending hstep
  exact effect.one_response

end Sys2Proof.Machine
end

section
/-! PROOF. Hex text (30_encoding.md R76): the digits of an octet as numbers, the text of a list as octets with a space before every
one but the first. -/

namespace Sys2Proof.Machine

/-! ### One octet -/

theorem highDigit_toNat (b : Byte) : (b.extractLsb' 4 4).toNat = b.toNat / 16 := by
  rw [BitVec.extractLsb'_toNat, Nat.shiftRight_eq_div_pow]
  omega

theorem lowDigit_toNat (b : Byte) : (b.extractLsb' 0 4).toNat = b.toNat % 16 := by
  rw [BitVec.extractLsb'_toNat, Nat.shiftRight_zero]

theorem hexDigit_injective : Function.Injective hexDigit := by
  unfold Function.Injective; decide

@[simp] theorem hex2_length (b : Byte) : (hex2 b).length = 2 := rfl

/-- The two digits tell the octet. -/
theorem hex2_injective : Function.Injective hex2 := by
  intro b c h
  obtain ⟨hhigh, hlow⟩ : hexDigit (b.extractLsb' 4 4) = hexDigit (c.extractLsb' 4 4) ∧
      hexDigit (b.extractLsb' 0 4) = hexDigit (c.extractLsb' 0 4) := by simpa [hex2] using h
  have hdiv : b.toNat / 16 = c.toNat / 16 := by
    rw [← highDigit_toNat, ← highDigit_toNat, hexDigit_injective hhigh]
  have hmod : b.toNat % 16 = c.toNat % 16 := by
    rw [← lowDigit_toNat, ← lowDigit_toNat, hexDigit_injective hlow]
  exact BitVec.eq_of_toNat_eq (by omega)

/-! ### A list of octets -/

/-- Octets with a space before each: the text that follows a first octet. -/
def spacedText (bs : Bytes) : Bytes := bs.flatMap fun b => 0x20 :: hex2 b

theorem spacedText_cons (b : Byte) (bs : Bytes) : spacedText (b :: bs) = (0x20 :: hex2 b) ++ spacedText bs :=
  List.flatMap_cons

theorem hexText_cons (b : Byte) (bs : Bytes) : hexText (b :: bs) = hex2 b ++ spacedText bs := by
  induction bs generalizing b with
  | nil => rfl
  | cons c bs ih => rw [hexText, ih, spacedText_cons, List.cons_append]; exact nofun

theorem spacedText_length (bs : Bytes) : (spacedText bs).length = 3 * bs.length := by
  induction bs with
  | nil => rfl
  | cons b bs ih => simp only [spacedText_cons, List.length_append, List.length_cons, hex2_length, ih]; omega

theorem hexText_cons_length (b : Byte) (bs : Bytes) : (hexText (b :: bs)).length = 3 * bs.length + 2 := by
  rw [hexText_cons, List.length_append, hex2_length, spacedText_length, Nat.add_comm]

/-- Every octet takes three characters, so equal texts agree octet by octet. -/
theorem spacedText_injective : Function.Injective spacedText := by
  intro bs
  induction bs with
  | nil =>
    rintro (_ | ⟨c, cs⟩) h
    · rfl
    · exact nomatch h
  | cons b bs ih =>
    rintro (_ | ⟨c, cs⟩) h
    · exact nomatch h
    · rw [spacedText_cons, spacedText_cons] at h
      obtain ⟨hfirst, hrest⟩ := List.append_inj h rfl
      rw [hex2_injective (List.cons.inj hfirst).2, ih hrest]

theorem hexText_injective : Function.Injective hexText := by
  rintro (_ | ⟨b, bs⟩) (_ | ⟨c, cs⟩) h
  · rfl
  · rw [hexText_cons] at h; exact nomatch h
  · rw [hexText_cons] at h; exact nomatch h
  · rw [hexText_cons, hexText_cons] at h
    obtain ⟨hfirst, hrest⟩ := List.append_inj h rfl
    rw [hex2_injective hfirst, spacedText_injective hrest]

theorem hexText_eq_intersperse (bs : Bytes) : hexText bs = ((bs.map hex2).intersperse [0x20]).flatten := by
  induction bs using hexText.induct with
  | case1 => rfl
  | case2 b => simp [hexText]
  | case3 b bs hne ih =>
    obtain ⟨c, cs, rfl⟩ := List.exists_cons_of_ne_nil hne
    rw [hexText, ih]
    · simp
    · exact hne

/-- Settles O41: the digits of an octet are its quotient and remainder by 16; the claims about a list follow from its text being a
first octet and spaced ones. -/
theorem hexTextTellsTheOctets : Obligations.HexTextTellsTheOctets := by
  refine ⟨?digits, hexText_eq_intersperse, rfl, ?length, fun _ _ h => hexText_injective h⟩
  case digits =>
    intro b code
    simp only [hex2, hexDigit, highDigit_toNat, lowDigit_toNat, code]
  case length =>
    intro bs hne
    obtain ⟨b, bs, rfl⟩ := List.exists_cons_of_ne_nil hne
    rw [hexText_cons_length, List.length_cons]
    omega

end Sys2Proof.Machine
end

section
/-! PROOF. BitCRC (40_crc.md R87 to R90): the register of the serial form, exclusive-ored into the message, is what the long
division works on. -/

namespace Sys2Proof.Machine

/-! ### Bits and bytes -/

@[simp] theorem byteBits_length (b : Byte) : (byteBits b).length = 8 := rfl

theorem messageBits_cons (b : Byte) (data : Bytes) : messageBits (b :: data) = byteBits b ++ messageBits data :=
  List.flatMap_cons

theorem messageBits_append (front back : Bytes) : messageBits (front ++ back) = messageBits front ++ messageBits back :=
  List.flatMap_append

theorem messageBits_length (data : Bytes) : (messageBits data).length = 8 * data.length := by
  induction data with
  | nil => rfl
  | cons b data ih => simp only [messageBits_cons, List.length_append, List.length_cons, byteBits_length, ih]; omega

theorem byteBits_zero : byteBits 0 = List.replicate 8 false := by decide

theorem byteBits_xor (a b : Byte) : byteBits (a ^^^ b) = List.zipWith (· ^^ ·) (byteBits a) (byteBits b) := by
  simp [byteBits]

/-- A left shift drops the first bit and brings in a 0. -/
theorem byteBits_shiftLeft (r : Byte) : byteBits (r <<< 1) = (byteBits r).tail ++ [false] := by
  simp [byteBits]

theorem bitsByte_byteBits (r : Byte) : bitsByte (byteBits r) = r := by revert r; decide

/-! ### Exclusive-or into the front of a sequence -/

theorem xorFront_nil (bits : List Bool) : xorFront [] bits = bits := by cases bits <;> rfl

theorem xorFront_length (ds ws : List Bool) (h : ds.length ≤ ws.length) : (xorFront ds ws).length = ws.length := by
  induction ds generalizing ws with
  | nil => rw [xorFront_nil]
  | cons d ds ih =>
    obtain ⟨w, ws, rfl⟩ := List.exists_cons_of_length_pos (Nat.zero_lt_of_lt h)
    simp [xorFront, ih ws (Nat.le_of_succ_le_succ h)]

theorem xorFront_xorFront (as bs ws : List Bool) (h : as.length = bs.length) :
    xorFront as (xorFront bs ws) = xorFront (List.zipWith (· ^^ ·) as bs) ws := by
  induction as generalizing bs ws with
  | nil => rw [List.length_eq_zero_iff.mp h.symm, xorFront_nil, xorFront_nil, List.zipWith_nil_left, xorFront_nil]
  | cons a as ih =>
    cases bs with
    | nil => cases h
    | cons b bs =>
      cases ws with
      | nil => rfl
      | cons w ws => simp [xorFront, ih bs ws (Nat.succ.inj h)]

@[simp] theorem xorFront_replicate_false (n : Nat) (ws : List Bool) : xorFront (List.replicate n false) ws = ws := by
  induction n generalizing ws with
  | zero => exact xorFront_nil ws
  | succ n ih => cases ws <;> simp [List.replicate_succ, xorFront, ih]

/-- Zero bits after the bits that are exclusive-ored in change nothing more. -/
theorem xorFront_append_replicate_false (bs ws : List Bool) (n : Nat) :
    xorFront (bs ++ List.replicate n false) ws = xorFront bs ws := by
  induction bs generalizing ws with
  | nil => rw [List.nil_append, xorFront_replicate_false, xorFront_nil]
  | cons b bs ih => cases ws <;> simp [xorFront, ih]

/-! ### The serial form and the long division -/

theorem xorFront_byteBits_shiftLeft (r : Byte) (ws : List Bool) :
    xorFront (byteBits (r <<< 1)) ws = xorFront (byteBits r).tail ws := by
  rw [byteBits_shiftLeft]
  exact xorFront_append_replicate_false _ ws 1

theorem xorFront_byteBits_xor (a b : Byte) (ws : List Bool) :
    xorFront (byteBits (a ^^^ b)) ws = xorFront (byteBits a) (xorFront (byteBits b) ws) := by
  rw [byteBits_xor, xorFront_xorFront (byteBits a) (byteBits b) ws rfl]

/-- One position of the division, with a register added to the sequence, is one step of the serial form. -/
theorem longDivide_succ (k r : Byte) (n : Nat) (w : Bool) (ws : List Bool) :
    longDivide k (n + 1) (xorFront (byteBits r) (w :: ws)) = longDivide k n (xorFront (byteBits (serialStep k r w)) ws) := by
  have hfront : xorFront (byteBits r) (w :: ws) = (r.getLsbD 7 ^^ w) :: xorFront (byteBits (r <<< 1)) ws := by
    rw [xorFront_byteBits_shiftLeft]; rfl
  rw [hfront, longDivide, divisorBits, xorFront, List.tail_cons, serialStep]
  congr 1
  split
  · rw [BitVec.xor_comm, xorFront_byteBits_xor]
  · rfl

/-- The long division keeps what the register of the serial form keeps: the eight bits from the current position on are the
register's, exclusive-ored into the message. -/
theorem longDivide_xorFront (k r : Byte) (bits : List Bool) :
    longDivide k bits.length (xorFront (byteBits r) (bits ++ List.replicate 8 false)) =
      byteBits (bits.foldl (serialStep k) r) := by
  induction bits generalizing r with
  | nil => simp [byteBits, xorFront, List.replicate, longDivide]
  | cons w bits ih =>
    rw [List.length_cons, List.cons_append, longDivide_succ, ih, List.foldl_cons]

/-- The division and the register end in the same eight bits. -/
theorem longDivide_messageBits (k : Byte) (data : Bytes) :
    longDivide k (8 * data.length) (messageBits data ++ List.replicate 8 false) = byteBits (serialCrc k data) := by
  have h := longDivide_xorFront k 0 (messageBits data)
  rwa [byteBits_zero, xorFront_replicate_false, messageBits_length] at h

/-- Settles O14: the bits the division leaves are the register's. -/
theorem serialFormEqualsLongDivision : Obligations.SerialFormEqualsLongDivision := by
  intro k data hk
  rw [crc8, if_neg hk, divisionRemainder, longDivide_messageBits, bitsByte_byteBits]

end Sys2Proof.Machine
end

section
/-! PROOF. The register of BitCRC run over bytes (40_crc.md R92): it is linear, a byte equal to it takes it up, and under an
odd key every step of it is injective. -/

namespace Sys2Proof.Machine

/-! ### The register run over bytes -/

/-- The register of the serial form after the bytes of `data`, from the value `r` on (40_crc.md R90). -/
def serialRun (k r : Byte) (data : Bytes) : Byte := (messageBits data).foldl (serialStep k) r

theorem crc8_eq_serialRun {k : Byte} (hk : k ≠ 0) (data : Bytes) : crc8 k data = serialRun k 0 data :=
  serialFormEqualsLongDivision k data hk

theorem serialRun_append (k r : Byte) (front back : Bytes) :
    serialRun k r (front ++ back) = serialRun k (serialRun k r front) back := by
  rw [serialRun, messageBits_append, List.foldl_append, serialRun, serialRun]

/-! ### Linearity -/

theorem serialStep_eq (k r : Byte) (w : Bool) : serialStep k r w = (r <<< 1) ^^^ (if r.getLsbD 7 ^^ w then k else 0) := by
  unfold serialStep
  split
  · rfl
  · exact BitVec.xor_zero.symm

theorem serialStep_xor (k r s : Byte) (v w : Bool) :
    serialStep k (r ^^^ s) (v ^^ w) = serialStep k r v ^^^ serialStep k s w := by
  have hbit : ((r ^^^ s).getLsbD 7 ^^ (v ^^ w)) = ((r.getLsbD 7 ^^ v) ^^ (s.getLsbD 7 ^^ w)) := by
    simp only [BitVec.getLsbD_xor, Bool.xor_assoc, Bool.xor_left_comm]
  have hkey : ∀ f g : Bool, (if f ^^ g then k else 0) = (if f then k else 0) ^^^ (if g then k else 0) := by
    rintro (_ | _) (_ | _) <;> simp
  rw [serialStep_eq, serialStep_eq, serialStep_eq, hbit, hkey, BitVec.shiftLeft_xor_distrib]
  ac_rfl

theorem foldl_serialStep_xor (k r s : Byte) (bits bits' : List Bool) (h : bits.length = bits'.length) :
    (List.zipWith (· ^^ ·) bits bits').foldl (serialStep k) (r ^^^ s) =
      bits.foldl (serialStep k) r ^^^ bits'.foldl (serialStep k) s := by
  induction bits generalizing bits' r s with
  | nil => cases List.length_eq_zero_iff.mp h.symm; rfl
  | cons v bits ih =>
    obtain ⟨w, bits', rfl⟩ := List.exists_cons_of_length_eq_add_one h.symm
    rw [List.zipWith_cons_cons, List.foldl_cons, serialStep_xor]
    exact ih _ _ _ (Nat.succ.inj h)

theorem messageBits_xor (d1 d2 : Bytes) (h : d1.length = d2.length) :
    messageBits (List.zipWith (· ^^^ ·) d1 d2) = List.zipWith (· ^^ ·) (messageBits d1) (messageBits d2) := by
  induction d1 generalizing d2 with
  | nil => rfl
  | cons a d1 ih =>
    obtain ⟨b, d2, rfl⟩ := List.exists_cons_of_length_eq_add_one h.symm
    rw [List.zipWith_cons_cons, messageBits_cons, messageBits_cons, messageBits_cons, byteBits_xor, ih d2 (Nat.succ.inj h)]
    exact (List.zipWith_append (byteBits_length a)).symm

/-- The register is a linear function of its start value and the data together. -/
theorem serialRun_xor (k r s : Byte) (d1 d2 : Bytes) (h : d1.length = d2.length) :
    serialRun k (r ^^^ s) (List.zipWith (· ^^^ ·) d1 d2) = serialRun k r d1 ^^^ serialRun k s d2 := by
  rw [serialRun, messageBits_xor d1 d2 h]
  exact foldl_serialStep_xor k r s _ _ (by rw [messageBits_length, messageBits_length, h])

/-! ### A register taken up by the data -/

/-- A byte equal to the register leaves nothing of it: no step exclusive-ors the key in, and eight shifts clear the register. -/
theorem serialRun_self (k r : Byte) : serialRun k r [r] = 0 := by
  simp [serialRun, messageBits, byteBits, serialStep]

theorem serialRun_self_cons (k r : Byte) (data : Bytes) : serialRun k r (r :: data) = serialRun k 0 data := by
  rw [← List.singleton_append, serialRun_append, serialRun_self]

/-- Only the exclusive-or of the register and the next byte matters. -/
theorem serialRun_cons (k r b : Byte) (data : Bytes) : serialRun k r (b :: data) = serialRun k (r ^^^ b) (0 :: data) := by
  have h : serialRun k r [b] = serialRun k (r ^^^ b) [0] := by
    have := serialRun_xor k (r ^^^ b) b [0] [b] rfl
    simpa [BitVec.xor_assoc, serialRun_self] using this
  rw [← List.singleton_append, serialRun_append, h, ← serialRun_append, List.singleton_append]

theorem serialRun_zeros (k : Byte) (d : Bytes) (hd : ∀ b ∈ d, b = 0) : serialRun k 0 d = 0 := by
  induction d with
  | nil => rfl
  | cons b d ih =>
    obtain ⟨hb, hd⟩ := List.forall_mem_cons.mp hd
    rw [hb, serialRun_self_cons, ih hd]

/-- A checksum after its data takes the register up, and what follows starts from 0 again. -/
theorem crc8_checksummed {k : Byte} (hk : k ≠ 0) (d p : Bytes) : crc8 k (d ++ [crc8 k d] ++ p) = crc8 k p := by
  simp only [crc8_eq_serialRun hk, List.append_assoc, List.singleton_append, serialRun_append k 0 d, serialRun_self_cons]

/-- Settles O16: each of (b), (c), (e) and (f) is a register taken up by an equal byte, (d) is linearity, and (f) gives (e) for no
further data. -/
theorem crcAlgebra : Obligations.CrcAlgebra := by
  refine ⟨fun k hk => ⟨?empty, ?zeros, ?leadingZero, ?linear, ?appended, crc8_checksummed hk⟩, ?keyOne⟩
  case empty => exact crc8_eq_serialRun hk []
  case zeros => exact fun d hd => (crc8_eq_serialRun hk d).trans (serialRun_zeros k d hd)
  case leadingZero =>
    intro d
    rw [crc8_eq_serialRun hk, crc8_eq_serialRun hk]
    exact serialRun_self_cons k 0 d
  case linear =>
    intro d1 d2 h
    rw [crc8_eq_serialRun hk, crc8_eq_serialRun hk, crc8_eq_serialRun hk]
    exact serialRun_xor k 0 0 d1 d2 h
  case appended =>
    intro d
    have h := crc8_checksummed hk d []
    rw [List.append_nil] at h
    exact h.trans (crc8_eq_serialRun hk [])
  case keyOne =>
    intro v
    rw [crc8_eq_serialRun (by decide)]
    revert v
    decide +kernel

/-! ### Odd keys -/

theorem serialStep_bit_zero (k r : Byte) (w : Bool) :
    (serialStep k r w).getLsbD 0 = ((r.getLsbD 7 ^^ w) && k.getLsbD 0) := by
  rw [serialStep_eq]
  cases r.getLsbD 7 ^^ w <;> simp

/-- Under an odd key bit 0 of the new register says whether the key was exclusive-ored in, so only the register 0 steps to 0. -/
theorem serialStep_eq_zero {k d : Byte} (hk : k.getLsbD 0 = true) (h : serialStep k d false = 0) : d = 0 := by
  have htop : d.getLsbD 7 = false := by
    have hbit := serialStep_bit_zero k d false
    rw [h, hk, Bool.xor_false, Bool.and_true] at hbit
    exact hbit.symm
  have hshift : d <<< 1 = 0 := by
    rwa [serialStep, htop, Bool.xor_false, if_neg Bool.false_ne_true] at h
  refine BitVec.eq_of_getLsbD_eq fun i hi => ?_
  rcases Nat.lt_succ_iff_lt_or_eq.mp hi with hlow | rfl
  · have := congrArg (BitVec.getLsbD · (i + 1)) hshift
    simpa [Nat.succ_lt_succ hlow, hi] using this
  · exact htop

theorem serialStep_injective {k : Byte} (hk : k.getLsbD 0 = true) (w : Bool) : Function.Injective (serialStep k · w) := by
  intro r s h
  have hdiff : serialStep k (r ^^^ s) false = 0 := by
    have := serialStep_xor k r s w w
    rwa [Bool.xor_self, show serialStep k r w = serialStep k s w from h, BitVec.xor_self] at this
  exact BitVec.xor_eq_zero_iff.mp (serialStep_eq_zero hk hdiff)

theorem foldl_serialStep_injective {k : Byte} (hk : k.getLsbD 0 = true) (bits : List Bool) :
    Function.Injective fun r => bits.foldl (serialStep k) r := by
  induction bits with
  | nil => exact Function.injective_id
  | cons w bits ih => exact ih.comp (serialStep_injective hk w)

theorem serialRun_injective {k : Byte} (hk : k.getLsbD 0 = true) (data : Bytes) :
    Function.Injective fun r => serialRun k r data :=
  foldl_serialStep_injective hk (messageBits data)

/-- Settles O17: the changed byte goes into the register by exclusive-or, and from there every step is injective. -/
theorem oddKeySeesEveryOneByteChange : Obligations.OddKeySeesEveryOneByteChange := by
  refine ⟨?odd, by decide, by decide⟩
  case odd =>
    intro k front back v w hk hne heq
    have hk0 : k ≠ 0 := by rintro rfl; exact absurd hk (by decide)
    rw [crc8_eq_serialRun hk0, crc8_eq_serialRun hk0, serialRun_append, serialRun_append, serialRun_cons k _ v,
      serialRun_cons k _ w] at heq
    exact hne ((BitVec.xor_right_inj _).mp (serialRun_injective hk (0 :: back) heq))

end Sys2Proof.Machine
end

section
/-! PROOF. The long division of BitCRC as polynomial division over GF(2) (40_crc.md R91): exclusive-or is the sum, so
each position adds a multiple of the divisor. -/

namespace Sys2Proof.Machine

open Polynomial

theorem bitsPolynomial_false_cons (bits : List Bool) : bitsPolynomial (false :: bits) = bitsPolynomial bits := by
  simp [bitsPolynomial]

theorem bitsPolynomial_append (front back : List Bool) :
    bitsPolynomial (front ++ back) = bitsPolynomial front * X ^ back.length + bitsPolynomial back := by
  induction front with
  | nil => simp [bitsPolynomial]
  | cons b front ih =>
    cases b <;> simp [bitsPolynomial, ih, pow_add, add_mul, add_assoc]

theorem bitsPolynomial_replicate_false (n : Nat) : bitsPolynomial (List.replicate n false) = 0 := by
  induction n with
  | zero => rfl
  | succ n ih => rw [List.replicate_succ, bitsPolynomial_false_cons, ih]

theorem bitsPolynomial_degree_lt (bits : List Bool) : (bitsPolynomial bits).degree < bits.length := by
  induction bits with
  | nil => simp [bitsPolynomial]
  | cons b bits ih =>
    have hlt : (bits.length : WithBot ℕ) < (b :: bits).length := Nat.cast_lt.mpr (Nat.lt_succ_self _)
    refine (degree_add_le _ _).trans_lt (max_lt ?_ (ih.trans hlt))
    cases b with
    | false => simp
    | true => simpa using hlt

/-- Exclusive-or is the sum over GF(2). -/
theorem bitsPolynomial_xorFront (ds ws : List Bool) (h : ds.length ≤ ws.length) :
    bitsPolynomial (xorFront ds ws) = bitsPolynomial ds * X ^ (ws.length - ds.length) + bitsPolynomial ws := by
  induction ds generalizing ws with
  | nil => simp [xorFront_nil, bitsPolynomial]
  | cons d ds ih =>
    obtain ⟨w, ws, rfl⟩ := List.exists_cons_of_length_pos (Nat.zero_lt_of_lt h)
    have hlen : ds.length ≤ ws.length := Nat.le_of_succ_le_succ h
    have hhead : (if d ^^ w then X ^ ws.length else 0 : (ZMod 2)[X]) =
        (if d then X ^ ds.length else 0) * X ^ (ws.length - ds.length) + (if w then X ^ ws.length else 0) := by
      cases d <;> cases w <;> simp [← pow_add, hlen, CharTwo.add_self_eq_zero]
    rw [xorFront, bitsPolynomial, xorFront_length ds ws hlen, hhead, ih ws hlen, List.length_cons, List.length_cons,
      Nat.succ_sub_succ, bitsPolynomial, bitsPolynomial]
    ring

theorem divisorBits_polynomial (k : Byte) : bitsPolynomial (divisorBits k) = X ^ 8 + bitsPolynomial (byteBits k) := rfl

theorem divisorBits_monic (k : Byte) : (bitsPolynomial (divisorBits k)).Monic :=
  monic_X_pow_add (bitsPolynomial_degree_lt (byteBits k))

theorem divisorBits_degree (k : Byte) : (bitsPolynomial (divisorBits k)).degree = 8 := by
  have hlow : (bitsPolynomial (byteBits k)).degree < (X ^ 8 : (ZMod 2)[X]).degree := by
    rw [degree_X_pow]; exact bitsPolynomial_degree_lt _
  rw [divisorBits_polynomial, degree_add_eq_left_of_degree_lt hlow, degree_X_pow]
  rfl

/-- A position of the division that holds 1 gets a multiple of the divisor added. -/
theorem longDivide_position_modByMonic (k : Byte) (ws : List Bool) (h : 8 ≤ ws.length) :
    bitsPolynomial (xorFront (byteBits k) ws) %ₘ bitsPolynomial (divisorBits k) =
      bitsPolynomial (true :: ws) %ₘ bitsPolynomial (divisorBits k) := by
  have hfront : xorFront (divisorBits k) (true :: ws) = false :: xorFront (byteBits k) ws := rfl
  have hsum := bitsPolynomial_xorFront (divisorBits k) (true :: ws) (Nat.succ_le_succ h)
  rw [hfront, bitsPolynomial_false_cons] at hsum
  rw [hsum]
  exact modByMonic_eq_of_dvd_sub (divisorBits_monic k) ⟨_, add_sub_cancel_right _ _⟩

/-- The long division keeps the residue class of the sequence it works on. -/
theorem longDivide_modByMonic (k : Byte) (n : Nat) (ws : List Bool) (h : n + 8 ≤ ws.length) :
    bitsPolynomial (longDivide k n ws) %ₘ bitsPolynomial (divisorBits k) =
      bitsPolynomial ws %ₘ bitsPolynomial (divisorBits k) := by
  induction n generalizing ws with
  | zero => rfl
  | succ n ih =>
    obtain ⟨b, ws, rfl⟩ := List.exists_cons_of_length_pos (Nat.zero_lt_of_lt h)
    have hlen : n + 8 ≤ ws.length := by rw [List.length_cons] at h; omega
    have hbyte : 8 ≤ ws.length := le_of_add_le_right hlen
    cases b with
    | false => rw [longDivide, if_neg Bool.false_ne_true, ih ws hlen, bitsPolynomial_false_cons]
    | true =>
      have hlength : (xorFront (byteBits k) ws).length = ws.length := xorFront_length _ _ hbyte
      rw [longDivide, if_pos rfl, ← longDivide_position_modByMonic k ws hbyte]
      exact ih _ (hlength.symm ▸ hlen)

/-- Settles O15: the division leaves eight bits, a polynomial of lower degree than the divisor in the residue class of the augmented
message. -/
theorem crcIsPolynomialRemainder : Obligations.CrcIsPolynomialRemainder := by
  intro k data hk
  have hbits : byteBits (crc8 k data) = longDivide k (8 * data.length) (messageBits data ++ List.replicate 8 false) := by
    rw [serialFormEqualsLongDivision k data hk, longDivide_messageBits]
  have haug : bitsPolynomial (messageBits data) * X ^ 8 = bitsPolynomial (messageBits data ++ List.replicate 8 false) := by
    rw [bitsPolynomial_append, bitsPolynomial_replicate_false, add_zero, List.length_replicate]
  have hdegree : (bitsPolynomial (byteBits (crc8 k data))).degree < (bitsPolynomial (divisorBits k)).degree := by
    rw [divisorBits_degree]; exact bitsPolynomial_degree_lt _
  calc bitsPolynomial (messageBits data) * X ^ 8 %ₘ bitsPolynomial (divisorBits k)
      = bitsPolynomial (byteBits (crc8 k data)) %ₘ bitsPolynomial (divisorBits k) := by
        rw [haug, hbits, longDivide_modByMonic]
        simp [messageBits_length]
    _ = bitsPolynomial (byteBits (crc8 k data)) := (modByMonic_eq_self_iff (divisorBits_monic k)).mpr hdegree

end Sys2Proof.Machine
end

section
/-! PROOF. The key policy and the BitCRC commands (40_crc.md R93 to R96). -/

namespace Sys2Proof.Machine

/-- Settles O18: the 256 byte values counted. -/
theorem keyPolicyCounts : Obligations.KeyPolicyCounts := by
  constructor
  case left => decide
  case right => decide

/-- A frame of an assigned opcode with operands of no command is, on PRV, answered `E1` (R73). -/
theorem step_malformed_prv {s : State} {body : Bytes} {rest : List Event} (op : Opcode)
    (hpending : s.pending = .frame .prv (op.toByte :: body) :: rest) (hoperands : decodeOperands op body = none) :
    step s = .next ((s.accept .prv rest).answered [0xE1]) := by
  have hdecode : decode (op.toByte :: body) = .error (.malformed op) := by rw [decode_opcode, hoperands]
  have herror : (s.accept .prv rest).illegalFrame (.malformed op) = .frame := by
    rw [State.illegalFrame_malformed]; exact if_neg fun h => nomatch h.1
  simp only [step, hpending, hdecode, State.rejectFrame_eq, herror]
  rfl

/-- Settles O11: the port check, then the key check, then the divisor; and only one operand byte decodes. -/
theorem crcInitResult : Obligations.CrcInitResult := by
  refine ⟨fun k => rfl, ?stored, ?zeroKey, fun _ _ hport => State.privileged_ext _ hport _, ?length⟩
  case stored =>
    intro k s hport hk
    exact (State.privileged_prv s hport _).trans (if_neg hk)
  case zeroKey =>
    intro s hport
    exact State.privileged_prv s hport _
  case length =>
    intro s body rest hpending hlength
    refine step_malformed_prv .crcInit hpending ?_
    match body, hlength with
    | [], _ => rfl
    | _ :: _ :: _, _ => rfl

/-- The first byte of CRC_GETDIV is the existence bit. -/
theorem existenceByte_of_exists (d : Divisor) (h : d.getLsbD 8 = true) : BitVec.setWidth 8 (d.extractLsb' 8 1) = (0x01 : Byte) := by
  revert d
  decide

/-- Settles O12: the port check, then the existence check, then the two bytes of the divisor; and no operand byte decodes. -/
theorem crcGetdivResult : Obligations.CrcGetdivResult := by
  refine ⟨rfl, ?present, ?absent, fun _ hport => State.privileged_ext _ hport _, ?length⟩
  case present =>
    intro s hport hcrc
    rw [exec, execCrcGetdiv, State.privileged_prv s hport, State.needCrc_true s hcrc, State.answer_eq, existenceByte_of_exists _ hcrc]
    rfl
  case absent =>
    intro s hport hcrc
    exact (State.privileged_prv s hport _).trans (State.needCrc_false s hcrc _)
  case length =>
    intro s body rest hpending hbody
    refine step_malformed_prv .crcGetdiv hpending ?_
    obtain ⟨b, body, rfl⟩ := List.exists_cons_of_ne_nil hbody
    rfl

theorem crcLengthOk_eq_true {p : Config.Params} {n : Nat} :
    crcLengthOk p n = true ↔ ∀ limit, p.maxCrcLen = some limit → n ≤ limit := by
  unfold crcLengthOk
  split <;> rename_i h <;> simp [h]

/-- Settles O13: the port check, then the length, then existence (R74); zero data leaves the register 0. -/
theorem crcCalcResult : Obligations.CrcCalcResult := by
  refine ⟨fun _ => rfl, ?present, ?absent, ?tooLong, fun _ _ hport => State.privileged_ext _ hport _, ?zeros⟩
  case present =>
    intro data s hport hcrc hlength
    rw [exec, execCrcCalc, State.privileged_prv s hport, if_pos (crcLengthOk_eq_true.mpr hlength), State.needCrc_true s hcrc]
    rfl
  case absent =>
    intro data s hport hcrc hlength
    rw [exec, execCrcCalc, State.privileged_prv s hport, if_pos (crcLengthOk_eq_true.mpr hlength), State.needCrc_false s hcrc]
    rfl
  case tooLong =>
    intro data s limit hport hlimit hlength
    have hlong : ¬crcLengthOk s.params data.length = true := fun h =>
      absurd (crcLengthOk_eq_true.mp h limit hlimit) (Nat.not_le.mpr hlength)
    rw [exec, execCrcCalc, State.privileged_prv s hport, if_neg hlong]
    rfl
  case zeros =>
    intro k n hk
    rw [crc8_eq_serialRun hk, serialRun_zeros k _ fun _ => List.eq_of_mem_replicate]

end Sys2Proof.Machine
end

section
/-! PROOF. The chained checksum (41_card_init_check.md R100 to R103, R117): a right checksum takes the register up, so the
chain is valid exactly when each protected block checks over its own bytes. -/

namespace Sys2Proof.Machine

/-- The protected blocks one by one (R41). -/
theorem forall_protected {p : Fin 2 → Fin 4 → Prop} :
    (∀ (s : Fin 2) (j : Fin 4), j ≠ 3 → ¬(s = 0 ∧ j = 0) → p s j) ↔ p 0 1 ∧ p 0 2 ∧ p 1 0 ∧ p 1 1 ∧ p 1 2 := by
  simp [Fin.forall_fin_succ, and_assoc]

/-- A chain input is the one before it, the checksum that covers that one, and eight bytes of the block (R100). -/
theorem Memory.chainIn_succ (m : Memory) (s : Fin 2) {j j' : Fin 4} (h : j'.val = j.val + 1) :
    Memory.chainIn m s j' = Memory.chainIn m s j ++ [Memory.byte m s j 8] ++ (Memory.block m s j').take 8 := by
  have hbefore : (List.finRange 4).filter (· < j') = (List.finRange 4).filter (· < j) ++ [j] := by
    revert j j'; decide
  have hblock : Memory.block m s j = (Memory.block m s j).take 8 ++ [Memory.byte m s j 8] := rfl
  rw [Memory.chainIn, hbefore, List.flatMap_append, List.flatMap_singleton, hblock]
  simp [Memory.chainIn]

/-- Where a block's checksum is its chain value, the next block's chain value is over its own payload (R117). -/
theorem chainVal_succ {d : Divisor} (hk : divisorKey d ≠ 0) {m : Memory} {s : Fin 2} {j j' : Fin 4} (h : j'.val = j.val + 1)
    (hchecked : Memory.byte m s j 8 = chainVal d m s j) :
    chainVal d m s j' = crc8 (divisorKey d) ((Memory.block m s j').take 8) := by
  rw [chainVal, Memory.chainIn_succ m s h, hchecked, chainVal, crc8_checksummed hk]

/-- What comes before a protected block that no protected block covers: the identity block, before block 1 of sector 0. -/
def Memory.leadIn (m : Memory) (s : Fin 2) (j : Fin 4) : Bytes := if s = 0 ∧ j = 1 then Memory.block m 0 0 else []

/-- The bytes a protected block checks over once the blocks before it check (R117). -/
def Memory.ownIn (m : Memory) (s : Fin 2) (j : Fin 4) : Bytes := Memory.leadIn m s j ++ (Memory.block m s j).take 8

theorem Memory.ownIn_of_not_lead (m : Memory) {s : Fin 2} {j : Fin 4} (h : ¬(s = 0 ∧ j = 1)) :
    Memory.ownIn m s j = (Memory.block m s j).take 8 := by
  rw [Memory.ownIn, Memory.leadIn, if_neg h, List.nil_append]

/-- The checksum over those bytes. -/
def ownVal (d : Divisor) (m : Memory) (s : Fin 2) (j : Fin 4) : Byte := crc8 (divisorKey d) (Memory.ownIn m s j)

/-- A chain value is over the block's own bytes once the protected blocks before it check over theirs. -/
theorem chainVal_eq_ownVal {d : Divisor} (hk : divisorKey d ≠ 0) {m : Memory} {s : Fin 2} {j : Fin 4} (hidentity : ¬(s = 0 ∧ j = 0))
    (hbefore : ∀ b < j, ¬(s = 0 ∧ b = 0) → Memory.byte m s b 8 = ownVal d m s b) :
    chainVal d m s j = ownVal d m s j := by
  induction j using Fin.induction with
  | zero =>
    have hlead : ¬(s = 0 ∧ (0 : Fin 4) = 1) := fun h => absurd h.2 (by decide)
    rw [ownVal, Memory.ownIn_of_not_lead m hlead]
    rfl
  | succ i ih =>
    by_cases hfirst : s = 0 ∧ i.castSucc = 0
    · obtain ⟨rfl, hi⟩ := hfirst
      obtain rfl : i = 0 := Fin.castSucc_eq_zero_iff.mp hi
      rfl
    · have hprevious : chainVal d m s i.castSucc = ownVal d m s i.castSucc :=
        ih hfirst fun b hb => hbefore b (hb.trans Fin.castSucc_lt_succ)
      have hchecked := hbefore i.castSucc Fin.castSucc_lt_succ hfirst
      have hsecond : ¬(s = 0 ∧ i.succ = 1) := fun h =>
        hfirst ⟨h.1, Fin.castSucc_eq_zero_iff.mpr (Fin.succ_injective 3 h.2)⟩
      rw [chainVal_succ hk (j := i.castSucc) rfl (hchecked.trans hprevious.symm), ownVal,
        Memory.ownIn_of_not_lead m hsecond]

/-- The chain is valid exactly when each protected block checks over its own bytes (R117). -/
theorem chainOk_iff_ownVal {d : Divisor} (hk : divisorKey d ≠ 0) (m : Memory) :
    chainOk d m = true ↔
      ∀ (s : Fin 2) (j : Fin 4), j ≠ 3 → ¬(s = 0 ∧ j = 0) → Memory.byte m s j 8 = ownVal d m s j := by
  rw [chainOk_eq]
  constructor
  · intro h s j
    induction j using WellFoundedLT.induction with
    | ind j ih =>
      intro hj hidentity
      rw [h s j hj hidentity]
      exact chainVal_eq_ownVal hk hidentity fun b hb => ih b hb (by omega)
  · intro h s j hj hidentity
    rw [chainVal_eq_ownVal hk hidentity fun b hb => h s b (by omega)]
    exact h s j hj hidentity

/-- Settles O27: the chain inputs end in one another, and the five blocks are checked one by one. -/
theorem chainReducesToOwnPayload : Obligations.ChainReducesToOwnPayload := by
  intro d m hk k blk
  refine ⟨fun sec j j' hnext _ _ hchecked => chainVal_succ hk hnext hchecked, ?_⟩
  rw [chainOk_iff_ownVal hk, forall_protected]
  exact Iff.rfl

end Sys2Proof.Machine
end

section
/-! PROOF. CARD_CHECK (41_card_init_check.md R116). -/

namespace Sys2Proof.Machine

theorem State.exec_cardCheck (s : State) (hport : s.port = .prv) (hcard : s.cardInitd = true) :
    exec .cardCheck s = .next (s.answered [0x00, if s.chainOk then 0x01 else 0x00]) :=
  (State.privileged_prv s hport _).trans (State.needCard_true s hcard _)

/-- Settles O26: the port check, then the existence check, then the five chain inputs; and no operand byte decodes. -/
theorem cardCheckResult : Obligations.CardCheckResult := by
  refine ⟨rfl, ?present, ?absent, fun _ hport => State.privileged_ext _ hport _, ?length⟩
  case present =>
    intro s hport hcard
    refine ⟨s.chainOk, State.exec_cardCheck s hport hcard, ?_⟩
    rw [State.chainOk, chainOk_eq, forall_protected]
    exact Iff.rfl
  case absent =>
    intro s hport hcard
    exact (State.privileged_prv s hport _).trans (State.needCard_false s hcard _)
  case length =>
    intro s body rest hpending hbody
    refine step_malformed_prv .cardCheck hpending ?_
    obtain ⟨b, body, rfl⟩ := List.exists_cons_of_ne_nil hbody
    rfl

end Sys2Proof.Machine
end

section
/-! PROOF. One byte of a valid chain overwritten (41_card_init_check.md R119): which checksum it bears on, what an odd key makes of
it, and what recomputing that checksum repairs. -/

namespace Sys2Proof.Machine

/-- A write inside a block. -/
theorem Memory.block_write_same (m : Memory) (s : Fin 2) (b : Fin 4) (i : Fin 9) (v : Byte) :
    Memory.block (Memory.write m (addr s b i) v) s b = (Memory.block m s b).set i.val v := by
  refine List.ext_getElem (by simp) fun n hn _ => ?_
  rw [Memory.block_length] at hn
  have hbyte := Memory.byte_write m s s b b ⟨n, hn⟩ i v
  rw [← Memory.block_getElem, ← Memory.block_getElem] at hbyte
  simpa [List.getElem_set, Fin.ext_iff, @eq_comm _ n] using hbyte

/-- A write to another block. -/
theorem Memory.block_write_other (m : Memory) {s s' : Fin 2} {b b' : Fin 4} (i : Fin 9) (v : Byte) (h : ¬(s' = s ∧ b' = b)) :
    Memory.block (Memory.write m (addr s b i) v) s' b' = Memory.block m s' b' :=
  Memory.block_congr fun n => by rw [Memory.byte_write, if_neg fun hn => h ⟨hn.1, hn.2.1⟩]

/-- The protected block whose checksum covers a block first: the block itself, or block 1 for the identity block (R119). -/
def coveringBlock (s : Fin 2) (b : Fin 4) : Fin 4 := if s = 0 ∧ b = 0 then 1 else b

theorem coveringBlock_identity : coveringBlock 0 0 = 1 := rfl

theorem coveringBlock_of_protected {s : Fin 2} {b : Fin 4} (h : ¬(s = 0 ∧ b = 0)) : coveringBlock s b = b := if_neg h

theorem coveringBlock_protected {s : Fin 2} {b : Fin 4} (h : b ≠ 3) :
    coveringBlock s b ≠ 3 ∧ ¬(s = 0 ∧ coveringBlock s b = 0) := by
  revert s b; decide

theorem Memory.leadIn_write (m : Memory) {s s' : Fin 2} {b j : Fin 4} (i : Fin 9) (v : Byte)
    (h : s' = 0 ∧ j = 1 → ¬(s = 0 ∧ b = 0)) : Memory.leadIn (Memory.write m (addr s b i) v) s' j = Memory.leadIn m s' j := by
  unfold Memory.leadIn
  split
  · exact Memory.block_write_other m i v fun hn => h ‹_› ⟨hn.1.symm, hn.2.symm⟩
  · rfl

/-- A byte overwritten in a block bears on the check of its covering block alone. -/
theorem ownChecked_write_other (d : Divisor) (m : Memory) {s s' : Fin 2} {b j : Fin 4} (i : Fin 9) (v : Byte)
    (hidentity : ¬(s' = 0 ∧ j = 0)) (h : ¬(s' = s ∧ j = coveringBlock s b)) :
    (Memory.byte (Memory.write m (addr s b i) v) s' j 8 = ownVal d (Memory.write m (addr s b i) v) s' j) ↔
      Memory.byte m s' j 8 = ownVal d m s' j := by
  have hblock : ¬(s' = s ∧ j = b) := by
    rintro ⟨rfl, rfl⟩
    exact h ⟨rfl, (coveringBlock_of_protected hidentity).symm⟩
  have hlead : s' = 0 ∧ j = 1 → ¬(s = 0 ∧ b = 0) := by
    rintro ⟨rfl, rfl⟩ ⟨rfl, rfl⟩
    exact h ⟨rfl, rfl⟩
  have hin : Memory.ownIn (Memory.write m (addr s b i) v) s' j = Memory.ownIn m s' j := by
    rw [Memory.ownIn, Memory.leadIn_write m i v hlead, Memory.block_write_other m i v hblock, Memory.ownIn]
  rw [Memory.byte_write, if_neg fun hn => hblock ⟨hn.1, hn.2.1⟩, ownVal, ownVal, hin]

/-- A byte overwritten in a block, other than the checksum of a protected one, is one byte of what its covering block checks over. -/
theorem Memory.ownIn_write (m : Memory) (s : Fin 2) (b : Fin 4) (i : Fin 9) (v : Byte) (h : (s = 0 ∧ b = 0) ∨ i ≠ 8) :
    ∃ (n : Nat) (hn : n < (Memory.ownIn m s (coveringBlock s b)).length),
      (Memory.ownIn m s (coveringBlock s b))[n] = Memory.byte m s b i ∧
      Memory.ownIn (Memory.write m (addr s b i) v) s (coveringBlock s b) = (Memory.ownIn m s (coveringBlock s b)).set n v := by
  by_cases hidentity : s = 0 ∧ b = 0
  · obtain ⟨rfl, rfl⟩ := hidentity
    have hown : ∀ m : Memory, Memory.ownIn m 0 (coveringBlock 0 0) = Memory.block m 0 0 ++ (Memory.block m 0 1).take 8 := fun _ => rfl
    have hi : i.val < (Memory.block m 0 0).length := by rw [Memory.block_length]; exact i.isLt
    simp only [hown]
    refine ⟨i.val, by rw [List.length_append]; omega, ?_, ?_⟩
    · rw [List.getElem_append_left hi, Memory.block_getElem]
    · rw [Memory.block_write_same, Memory.block_write_other m i v (by decide), List.set_append_left _ _ hi]
  · have hi : i.val < 8 := by have := h.resolve_left hidentity; omega
    have hlength : (Memory.leadIn m s b).length + i.val < (Memory.ownIn m s b).length := by
      simp only [Memory.ownIn, List.length_append, List.length_take, Memory.block_length]; omega
    rw [coveringBlock_of_protected hidentity]
    refine ⟨(Memory.leadIn m s b).length + i.val, hlength, ?_, ?_⟩
    · simp only [Memory.ownIn, List.getElem_append_right (Nat.le_add_right _ _), Nat.add_sub_cancel_left, List.getElem_take,
        Memory.block_getElem]
    · rw [Memory.ownIn, Memory.leadIn_write m i v fun _ => hidentity, Memory.block_write_same, List.take_set, Memory.ownIn,
        List.set_append_right _ _ (Nat.le_add_right _ _), Nat.add_sub_cancel_left]

/-- Under an odd key a byte overwritten with another value changes a checksum (R92(g)). -/
theorem crc8_set_ne {k : Byte} (hk : k.getLsbD 0 = true) (data : Bytes) {n : Nat} (hn : n < data.length) {v : Byte} (hv : v ≠ data[n]) :
    crc8 k (data.set n v) ≠ crc8 k data := by
  have hset : data.set n v = data.take n ++ v :: data.drop (n + 1) := List.set_eq_take_append_cons_drop .. |>.trans (if_pos hn)
  have hdata : data = data.take n ++ data[n] :: data.drop (n + 1) := by simp
  rw [hset]
  conv_rhs => rw [hdata]
  exact oddKeySeesEveryOneByteChange.1 k _ _ v data[n] hk hv

/-- Settles O28: the covering block's checksum stays, and is no longer that of the changed bytes. -/
theorem oddKeyChainIsSensitive : Obligations.OddKeyChainIsSensitive := by
  intro d m sec blk i v hodd hok hblk hbyte hv
  have hkey : (divisorKey d).getLsbD 0 = true := by simpa [divisorKey] using hodd
  have hk : divisorKey d ≠ 0 := fun h0 => absurd (h0 ▸ hkey) (by decide)
  obtain ⟨htrailer, hidentity⟩ := coveringBlock_protected (s := sec) hblk
  rw [Bool.eq_false_iff]
  intro hok'
  have hstored := (chainOk_iff_ownVal hk m).mp hok sec _ htrailer hidentity
  have hstored' := (chainOk_iff_ownVal hk _).mp hok' sec _ htrailer hidentity
  have hsame : Memory.byte (Memory.write m (addr sec blk i) v) sec (coveringBlock sec blk) 8 = Memory.byte m sec (coveringBlock sec blk) 8 := by
    rw [Memory.byte_write, if_neg]
    rintro ⟨_, hcover, rfl⟩
    exact hbyte.elim (fun h => hidentity ⟨h.1, hcover.trans h.2⟩) (· rfl)
  obtain ⟨n, hn, hold, hin⟩ := Memory.ownIn_write m sec blk i v hbyte
  refine crc8_set_ne hkey _ hn (hold ▸ hv) ?_
  rw [← hin]
  exact hstored'.symm.trans (hsame.trans hstored)

/-- Settles O29: the covering block checks over its own bytes because its checksum is recomputed, every other block because neither
write bears on it. -/
theorem oneRecomputedChecksumRepairs : Obligations.OneRecomputedChecksumRepairs := by
  intro d m sec blk i v hk hok hblk m1 j
  obtain ⟨_, hidentity⟩ : j ≠ 3 ∧ ¬(sec = 0 ∧ j = 0) := coveringBlock_protected hblk
  have hself : coveringBlock sec j = j := coveringBlock_of_protected hidentity
  have hother : ∀ (s : Fin 2) (b : Fin 4), b ≠ 3 → ¬(s = 0 ∧ b = 0) → ¬(s = sec ∧ b = j) →
      Memory.byte (Memory.write m1 (addr sec j 8) (chainVal d m1 sec j)) s b 8 =
        ownVal d (Memory.write m1 (addr sec j 8) (chainVal d m1 sec j)) s b := by
    intro s b hb hprotected hne
    rw [ownChecked_write_other d m1 8 _ hprotected (hself.symm ▸ hne), ownChecked_write_other d m i v hprotected hne]
    exact (chainOk_iff_ownVal hk m).mp hok s b hb hprotected
  refine (chainOk_iff_ownVal hk _).mpr fun s b hb hprotected => ?_
  by_cases hrecomputed : s = sec ∧ b = j
  · obtain ⟨rfl, rfl⟩ := hrecomputed
    have hbefore := chainVal_eq_ownVal hk hprotected fun b' hlt hb' => hother s b' (by omega) hb' fun h => hlt.ne h.2
    rw [Memory.byte_write, if_pos ⟨rfl, rfl, rfl⟩, ← hbefore, chainVal_write d m1 _ (.inr le_rfl)]
  · exact hother s b hb hprotected hrecomputed

end Sys2Proof.Machine
end

section
/-! PROOF. The card a CARD_INIT builds (41_card_init_check.md R104 to R114, R118): its bytes, its registers, its draws and its
valid chain. -/

namespace Sys2Proof.Machine

/-- CARD_INIT accepted: the card is built and the answer is an empty `OK` (R104, R113). -/
theorem State.exec_cardInit (s : State) (hport : s.port = .prv) (flags : Byte) {crcKey : Byte} (hk : crcKey ≠ 0)
    (id mfg s0ka s0kb s1ka s1kb : Quad) (ac0 ac1 : Byte) :
    exec (.cardInit flags crcKey id mfg s0ka s0kb s1ka s1kb ac0 ac1) s =
      .next ((s.buildCard flags crcKey id mfg ⟨s0ka, s0kb, s1ka, s1kb⟩ ac0 ac1).answered [0x00]) :=
  (State.privileged_prv s hport _).trans (if_neg hk)

/-! ### The bytes of a new card -/

section
variable (s : State) (flags crcKey : Byte) (id mfg : Quad) (keys : KeyTable) (ac0 ac1 : Byte)

/-- The payload bytes of the protected blocks are step 2's (R106). -/
theorem State.cardBytes_payload {sec : Fin 2} {blk : Fin 4} {i : Fin 9} (hblk : blk ≠ 3) (hidentity : ¬(sec = 0 ∧ blk = 0))
    (hi : i ≠ 8) :
    Memory.byte (s.cardBytes flags crcKey id mfg keys) sec blk i = Memory.byte s.params.payloadInit sec blk i := by
  have hother : ∀ {p : Prop}, ¬(sec = 0 ∧ blk = 0 ∧ p) := fun h => hidentity ⟨h.1, h.2.1⟩
  simp only [State.cardBytes]
  rw [Memory.writeKeys_byte_other _ _ _ _ _ (.inl hblk), Memory.byte_writeQuad _ _ _ _ _ _ _ _ (by decide), dif_neg hother,
    Memory.byte_write, if_neg hother, Memory.byte_writeQuad _ _ _ _ _ _ _ _ (by decide), dif_neg hother, blankStorage_byte,
    if_pos ⟨hblk, hidentity, hi⟩]

/-- The identity block: the ID, the key copy, the manufacturing data (R107, R108, R109). -/
theorem State.cardBytes_identity :
    Memory.quad (s.cardBytes flags crcKey id mfg keys) 0 0 0 1 2 3 = (if flagIdV flags then id else s.sourceQuad 0) ∧
    Memory.byte (s.cardBytes flags crcKey id mfg keys) 0 0 4 = crcKey ∧
    Memory.quad (s.cardBytes flags crcKey id mfg keys) 0 0 5 6 7 8 =
      (if flagMfgV flags then mfg else s.sourceQuad (idDraws flags + 1)) := by
  simp (disch := decide) only [Memory.quad, State.cardBytes, Memory.writeKeys_byte_other, Memory.byte_writeQuad, Memory.byte_write]
  exact ⟨rfl, rfl, rfl⟩

/-- The keys step 6 writes (R110). -/
def State.cardKeys (s : State) (flags : Byte) (keys : KeyTable) : KeyTable :=
  if flagKdf flags then ⟨freeQuad s.unspecs, freeQuad (s.unspecs + 4), freeQuad (s.unspecs + 8), freeQuad (s.unspecs + 12)⟩
  else if flagKeysV flags then keys else s.sourceKeys (idDraws flags + mfgDraws flags)

theorem State.cardKeys_unspecified (hkdf : flagKdf flags = true) : s.cardKeys flags keys =
    ⟨freeQuad s.unspecs, freeQuad (s.unspecs + 4), freeQuad (s.unspecs + 8), freeQuad (s.unspecs + 12)⟩ := if_pos hkdf

theorem State.cardKeys_supplied (hkdf : flagKdf flags = false) (hkeysV : flagKeysV flags = true) :
    s.cardKeys flags keys = keys := by
  rw [State.cardKeys, if_neg (Bool.eq_false_iff.mp hkdf), if_pos hkeysV]

theorem State.cardKeys_drawn (hkdf : flagKdf flags = false) (hkeysV : flagKeysV flags = false) :
    s.cardKeys flags keys = s.sourceKeys (idDraws flags + mfgDraws flags) := by
  rw [State.cardKeys, if_neg (Bool.eq_false_iff.mp hkdf), if_neg (Bool.eq_false_iff.mp hkeysV)]

/-- Each trailer holds its two keys (R42). -/
theorem State.cardBytes_keys :
    Memory.key (s.cardBytes flags crcKey id mfg keys) 0 .a = (s.cardKeys flags keys).s0a ∧
    Memory.key (s.cardBytes flags crcKey id mfg keys) 0 .b = (s.cardKeys flags keys).s0b ∧
    Memory.key (s.cardBytes flags crcKey id mfg keys) 1 .a = (s.cardKeys flags keys).s1a ∧
    Memory.key (s.cardBytes flags crcKey id mfg keys) 1 .b = (s.cardKeys flags keys).s1b :=
  Memory.writeKeys_key _ _

/-- After step 6 only the access bytes and the checksums are written. -/
theorem State.buildCard_byte {sec : Fin 2} {blk : Fin 4} {i : Fin 9} (hchecksum : i ≠ 8 ∨ blk = 3 ∨ (sec = 0 ∧ blk = 0))
    (haccess : ¬(blk = 3 ∧ i = 4)) :
    Memory.byte (s.buildCard flags crcKey id mfg keys ac0 ac1).mem sec blk i =
      Memory.byte (s.cardBytes flags crcKey id mfg keys) sec blk i := by
  rw [State.buildCard_eq]
  dsimp only
  rw [chainWrite_byte_other _ _ _ _ _ hchecksum, Memory.byte_write, if_neg fun h => haccess h.2, Memory.byte_write,
    if_neg fun h => haccess h.2]

/-- The access bytes (R111). -/
theorem State.buildCard_access (sec : Fin 2) :
    Memory.byte (s.buildCard flags crcKey id mfg keys ac0 ac1).mem sec 3 4 =
      (if flagAcV flags then if sec = 0 then ac0 else ac1 else 0xFF) := by
  rw [State.buildCard_eq]
  dsimp only
  rw [chainWrite_byte_other _ _ _ _ _ (.inl (by decide)), Memory.byte_write, Memory.byte_write]
  match sec with
  | 0 => rfl
  | 1 => rfl

/-- The quads of the identity block stay after step 6. -/
theorem State.buildCard_identity (i0 i1 i2 i3 : Fin 9) :
    Memory.quad (s.buildCard flags crcKey id mfg keys ac0 ac1).mem 0 0 i0 i1 i2 i3 =
      Memory.quad (s.cardBytes flags crcKey id mfg keys) 0 0 i0 i1 i2 i3 := by
  simp [Memory.quad, State.buildCard_byte]

/-- The keys of a new card (R110). -/
theorem State.buildCard_key (sec : Fin 2) (kt : KeyType) :
    Memory.key (s.buildCard flags crcKey id mfg keys ac0 ac1).mem sec kt =
      Memory.key (s.cardBytes flags crcKey id mfg keys) sec kt := by
  cases kt <;> simp [Memory.key, Memory.quad, State.buildCard_byte]

/-- The checksums are written last (R112). -/
theorem State.buildCard_chainOk : (s.buildCard flags crcKey id mfg keys ac0 ac1).chainOk = true := by
  rw [State.chainOk, chainOk_eq, State.buildCard_eq]
  exact chainWrite_byte_checksum _ _

/-! ### Its registers and its draws -/

theorem State.buildCard_cardType : (s.buildCard flags crcKey id mfg keys ac0 ac1).cardType =
    if flagMfgV flags then flagType flags else s.source (idDraws flags) % 2 == 1 := by rw [State.buildCard_eq]

theorem State.buildCard_unspecs :
    (s.buildCard flags crcKey id mfg keys ac0 ac1).unspecs = s.unspecs + if flagKdf flags then 16 else 0 := by
  rw [State.buildCard_eq]

theorem idDraws_le : idDraws flags ≤ 4 := by unfold idDraws; split <;> omega

theorem mfgDraws_le : mfgDraws flags ≤ 5 := by unfold mfgDraws; split <;> omega

theorem keyDraws_le : keyDraws flags ≤ 16 := by unfold keyDraws; split <;> omega

/-- The value after the card type's. -/
theorem idDraws_succ : idDraws flags + 1 = if flagIdV flags then 1 else 5 := by unfold idDraws; split <;> rfl

end

/-! ### What a new card is -/

/-- Settles O19: the bytes by the lemmas above, the registers by what CARD_INIT does to the state. -/
theorem cardInitBuildsACard : Obligations.CardInitBuildsACard := by
  intro flags crcKey id mfg s0ka s0kb s1ka s1kb ac0 ac1 s hport hk
  refine ⟨_, State.exec_cardInit s hport flags hk id mfg s0ka s0kb s1ka s1kb ac0 ac1, ?divisor, ?payload, ?keyCopy, ?access0, ?access1,
    (chainOk_eq _ _).mp (State.buildCard_chainOk s flags crcKey id mfg _ ac0 ac1), ?registers⟩
  case divisor => rw [State.buildCard_eq]; rfl
  case payload =>
    intro sec blk i hblk hidentity hi
    exact (State.buildCard_byte s flags crcKey id mfg _ ac0 ac1 (.inl hi) fun h => hblk h.1).trans
      (State.cardBytes_payload s flags crcKey id mfg _ hblk hidentity hi)
  case keyCopy =>
    obtain ⟨_, hcopy, _⟩ := State.cardBytes_identity s flags crcKey id mfg ⟨s0ka, s0kb, s1ka, s1kb⟩
    exact (State.buildCard_byte s flags crcKey id mfg _ ac0 ac1 (.inl (by decide)) (by decide)).trans hcopy
  case access0 => exact State.buildCard_access s flags crcKey id mfg _ ac0 ac1 0
  case access1 => exact State.buildCard_access s flags crcKey id mfg _ ac0 ac1 1
  case registers =>
    rw [State.buildCard_eq]
    exact ⟨rfl, rfl, rfl, rfl, rfl, rfl, rfl, rfl, rfl, rfl, rfl, rfl, rfl, rfl⟩

/-- Settles O20: the ID's bytes are written in step 3 and by no later step. -/
theorem cardInitIdentity : Obligations.CardInitIdentity := by
  intro flags crcKey id mfg s0ka s0kb s1ka s1kb ac0 ac1 s hport hk
  refine ⟨_, State.exec_cardInit s hport flags hk id mfg s0ka s0kb s1ka s1kb ac0 ac1, ?_⟩
  obtain ⟨hid, _, _⟩ := State.cardBytes_identity s flags crcKey id mfg ⟨s0ka, s0kb, s1ka, s1kb⟩
  exact (State.buildCard_identity s flags crcKey id mfg _ ac0 ac1 0 1 2 3).trans hid

/-- Settles O21: the type is the first value after the ID's draws, the bytes the four after it. -/
theorem cardInitManufacturing : Obligations.CardInitManufacturing := by
  intro flags crcKey id mfg s0ka s0kb s1ka s1kb ac0 ac1 s hport hk
  refine ⟨_, State.exec_cardInit s hport flags hk id mfg s0ka s0kb s1ka s1kb ac0 ac1, ?_⟩
  obtain ⟨_, _, hmfg⟩ := State.cardBytes_identity s flags crcKey id mfg ⟨s0ka, s0kb, s1ka, s1kb⟩
  rw [State.answered_mem, State.answered_cardType, State.buildCard_identity, hmfg, State.buildCard_cardType, idDraws_succ]
  refine ⟨fun hsupplied => ⟨if_pos hsupplied, if_pos hsupplied⟩, fun hdrawn => ?_⟩
  have hclear : ¬flagMfgV flags = true := Bool.eq_false_iff.mp hdrawn
  exact ⟨if_neg hclear, if_neg hclear⟩

/-- Settles O22: step 6 in the order of its tests. -/
theorem cardInitKeys : Obligations.CardInitKeys := by
  intro flags crcKey id mfg s0ka s0kb s1ka s1kb ac0 ac1 s hport hk
  refine ⟨_, State.exec_cardInit s hport flags hk id mfg s0ka s0kb s1ka s1kb ac0 ac1, ?_⟩
  obtain ⟨h0a, h0b, h1a, h1b⟩ := State.cardBytes_keys s flags crcKey id mfg ⟨s0ka, s0kb, s1ka, s1kb⟩
  simp only [State.answered_mem, State.answered_unspecs, State.buildCard_key, State.buildCard_unspecs, h0a, h0b, h1a, h1b]
  refine ⟨fun hkdf => ?unspecified, fun hkdf => ?counter, fun hkdf hkeysV => ?supplied, fun hkdf hkeysV => ?drawn⟩
  case unspecified =>
    rw [State.cardKeys_unspecified s flags _ hkdf]
    exact ⟨rfl, rfl, rfl, rfl, congrArg (s.unspecs + ·) (if_pos hkdf)⟩
  case counter => exact congrArg (s.unspecs + ·) (if_neg (Bool.eq_false_iff.mp hkdf))
  case supplied =>
    rw [State.cardKeys_supplied s flags _ hkdf hkeysV]
    exact ⟨rfl, rfl, rfl, rfl⟩
  case drawn =>
    rw [State.cardKeys_drawn s flags _ hkdf hkeysV]
    exact ⟨rfl, rfl, rfl, rfl⟩

/-- Settles O23: the draws of steps 3, 5 and 6 together, each bounded. -/
theorem cardInitDrawCount : Obligations.CardInitDrawCount := by
  intro flags crcKey id mfg s0ka s0kb s1ka s1kb ac0 ac1 s hport hk
  refine ⟨_, State.exec_cardInit s hport flags hk id mfg s0ka s0kb s1ka s1kb ac0 ac1, ?_⟩
  rw [State.buildCard_eq]
  have hid := idDraws_le flags
  have hmfg := mfgDraws_le flags
  have hkeys := keyDraws_le flags
  exact ⟨rfl, rfl, show idDraws flags + mfgDraws flags + keyDraws flags ≤ 25 by omega⟩

/-- Settles O25: the chain is written last and CARD_CHECK finds it valid. -/
theorem freshCardPassesItsCheck : Obligations.FreshCardPassesItsCheck := by
  intro flags crcKey id mfg s0ka s0kb s1ka s1kb ac0 ac1 s hport hk
  refine ⟨_, State.exec_cardInit s hport flags hk id mfg s0ka s0kb s1ka s1kb ac0 ac1, ?_⟩
  have hok := State.buildCard_chainOk s flags crcKey id mfg ⟨s0ka, s0kb, s1ka, s1kb⟩ ac0 ac1
  rw [State.exec_cardCheck _ (by rw [State.buildCard_eq]; exact hport) (by rw [State.buildCard_eq]; rfl)]
  exact congrArg (fun ok => Host.Outcome.next (State.answered _ [0x00, if ok = true then 0x01 else 0x00])) hok

end Sys2Proof.Machine
end

section
/-! PROOF. CARD_INIT uses no field whose valid bit is 0 (41_card_init_check.md R115): one lemma for each step. -/

namespace Sys2Proof.Machine

section
variable {flags flags' : Byte}

theorem State.initId_congr (s : State) {id id' : Quad} (hbit : flagIdV flags = flagIdV flags') (hid : flagIdV flags = true → id = id') :
    s.initId flags id = s.initId flags' id' := by
  rw [State.initId_eq, State.initId_eq, ← hbit, ite_congr rfl hid fun _ => rfl]

theorem State.initMfg_congr (s : State) {mfg mfg' : Quad} (hbit : flagMfgV flags = flagMfgV flags')
    (htype : flagMfgV flags = true → flagType flags = flagType flags') (hmfg : flagMfgV flags = true → mfg = mfg') :
    s.initMfg flags mfg = s.initMfg flags' mfg' := by
  rw [State.initMfg_eq, State.initMfg_eq, ← hbit, ite_congr rfl htype fun _ => rfl, ite_congr rfl hmfg fun _ => rfl]

theorem State.initKeys_congr (s : State) {keys keys' : KeyTable} (hbit : flagKdf flags = flagKdf flags')
    (hsupplied : flagKdf flags = false → flagKeysV flags = flagKeysV flags')
    (hkeys : flagKdf flags = false → flagKeysV flags = true → keys = keys') :
    s.initKeys flags keys = s.initKeys flags' keys' := by
  rw [State.initKeys_eq, State.initKeys_eq, ← hbit]
  cases hkdf : flagKdf flags with
  | true => rfl
  | false =>
    rw [← hsupplied hkdf, ite_congr rfl (hkeys hkdf) fun _ => rfl]

theorem State.initAccess_congr (s : State) {ac0 ac0' ac1 ac1' : Byte} (hbit : flagAcV flags = flagAcV flags')
    (hac : flagAcV flags = true → ac0 = ac0' ∧ ac1 = ac1') : s.initAccess flags ac0 ac1 = s.initAccess flags' ac0' ac1' := by
  unfold State.initAccess
  rw [← hbit, ite_congr rfl (fun h => (hac h).1) fun _ => rfl, ite_congr rfl (fun h => (hac h).2) fun _ => rfl]

theorem State.finishCard_congr (s : State) (hbit : flagB0w flags = flagB0w flags') : s.finishCard flags = s.finishCard flags' := by
  rw [State.finishCard, hbit, State.finishCard]

end

/-- Settles O24: no step of CARD_INIT sees the difference. -/
theorem cardInitIgnoresInvalidFields : Obligations.CardInitIgnoresInvalidFields := by
  intro flags flags' crcKey id id' mfg mfg' s0ka s0ka' s0kb s0kb' s1ka s1ka' s1kb s1kb' ac0 ac0' ac1 ac1' s hbits htype hkeysV hid hmfg
    hkeys hac
  have hkeyTable : flagKdf flags = false → flagKeysV flags = true →
      (⟨s0ka, s0kb, s1ka, s1kb⟩ : KeyTable) = ⟨s0ka', s0kb', s1ka', s1kb'⟩ := by
    intro hkdf hsupplied
    obtain ⟨rfl, rfl, rfl, rfl⟩ := hkeys hkdf hsupplied
    rfl
  have hbuild : s.buildCard flags crcKey id mfg ⟨s0ka, s0kb, s1ka, s1kb⟩ ac0 ac1 =
      s.buildCard flags' crcKey id' mfg' ⟨s0ka', s0kb', s1ka', s1kb'⟩ ac0' ac1' := by
    rw [State.buildCard, State.initId_congr _ (hbits 7 (by decide) (by decide)) hid,
      State.initMfg_congr _ (hbits 6 (by decide) (by decide)) htype hmfg,
      State.initKeys_congr _ (hbits 3 (by decide) (by decide)) hkeysV hkeyTable,
      State.initAccess_congr _ (hbits 4 (by decide) (by decide)) hac,
      State.finishCard_congr _ (hbits 2 (by decide) (by decide)), State.buildCard]
  simp only [exec, execCardInit, hbuild]

end Sys2Proof.Machine
end

section
/-! PROOF. What the two reads answer for each outcome of `AUTH` (42_card_access.md R120, R124): denied, a trailer, a data block. -/

namespace Sys2Proof.Machine

/-! ### Each read, outcome by outcome -/

section
variable {s : State} {ss bb : Byte} {kt : KeyType} {key : Quad} {sec : Fin 2} {blk : Fin 4}

theorem State.exec_cardRead_denied (hcard : s.cardInitd = true) (hauth : s.auth .read ss bb kt key = none) :
    exec (.cardRead ss bb kt key) s = .next (s.answered [0x00, 0x31, 0x30]) := by
  simp only [exec, execCardRead, s.needCard_true hcard, hauth]
  rfl

theorem State.exec_cardRead_trailer (hcard : s.cardInitd = true) (hauth : s.auth .read ss bb kt key = some (sec, 3)) :
    exec (.cardRead ss bb kt key) s =
      .next (s.answered (0x00 :: hexText [Memory.access s.mem sec, Memory.access s.mem sec])) := by
  simp only [exec, execCardRead, s.needCard_true hcard, hauth]
  rfl

theorem State.exec_cardRead_data (hcard : s.cardInitd = true) (hauth : s.auth .read ss bb kt key = some (sec, blk)) (hblk : blk ≠ 3) :
    exec (.cardRead ss bb kt key) s = s.noisyRead sec blk := by
  simp only [exec, execCardRead, s.needCard_true hcard, hauth, if_neg hblk]

theorem State.exec_cardReadi (hport : s.port = .prv) (hcard : s.cardInitd = true) :
    exec (.cardReadi ss bb kt key) s = .next (s.answered (0x00 :: s.authoritativeRead ss bb kt key)) :=
  (s.privileged_prv hport _).trans (s.needCard_true hcard _)

theorem State.authoritativeRead_denied (hauth : s.auth .read ss bb kt key = none) : s.authoritativeRead ss bb kt key = [] := by
  simp only [State.authoritativeRead, hauth]

theorem State.authoritativeRead_trailer (hauth : s.auth .read ss bb kt key = some (sec, 3)) :
    s.authoritativeRead ss bb kt key = [Memory.access s.mem sec, Memory.access s.mem sec] := by
  simp only [State.authoritativeRead, hauth, if_true]

theorem State.authoritativeRead_data (hauth : s.auth .read ss bb kt key = some (sec, blk)) (hblk : blk ≠ 3) :
    s.authoritativeRead ss bb kt key = Memory.block s.mem sec blk := by
  simp only [State.authoritativeRead, hauth, if_neg hblk]

end

/-- Settles O32: a coordinate out of range fails `AUTH` as well, so each cause is the one denied outcome. -/
theorem deniedReadsChangeNothing : Obligations.DeniedReadsChangeNothing := by
  intro s ss bb kt key hcard hdenied
  have hauth : s.auth .read ss bb kt key = none := by
    rcases hdenied with hss | hbb | hauth
    · exact State.auth_out_of_range (.inl hss)
    · exact State.auth_out_of_range (.inr hbb)
    · exact hauth
  refine ⟨State.exec_cardRead_denied hcard hauth, fun hport => ?_⟩
  rw [State.exec_cardReadi hport hcard, State.authoritativeRead_denied hauth]

/-- Settles O33: the text of two octets is the digits of each with one space between. -/
theorem trailerReadGivesAccessByteTwice : Obligations.TrailerReadGivesAccessByteTwice := by
  intro s ss bb kt key sec hcard hauth a
  refine ⟨State.exec_cardRead_trailer hcard hauth, fun hport => ?_⟩
  rw [State.exec_cardReadi hport hcard, State.authoritativeRead_trailer hauth]
  rfl

/-- Settles O34: on PRV with a card CARD_READI answers the authoritative read, for a data block its nine bytes. -/
theorem authoritativeReadGivesStoredBytes : Obligations.AuthoritativeReadGivesStoredBytes := by
  intro s ss bb kt key sec blk hport hcard hauth hblk r
  rw [State.exec_cardReadi hport hcard, State.authoritativeRead_data hauth hblk, Memory.block_eq]

/-! ### A granted read is told from a denied one -/

/-- The text of two or more octets is longer than the token `"10"`. -/
theorem hexText_ne_tokenNak {octets : Bytes} (h : 2 ≤ octets.length) : hexText octets ≠ tokenNak := by
  intro heq
  cases octets with
  | nil => simp at h
  | cons b bs =>
    have hlength := congrArg List.length heq
    rw [hexText_cons_length] at hlength
    simp only [List.length_cons, tokenNak, List.length_nil] at h hlength
    omega

/-- A noisy read that ends answers eight octets and the parity (R121, R122). -/
theorem State.noisyRead_answers {s t : State} {sec : Fin 2} {blk : Fin 4} (h : s.noisyRead sec blk = .next t) :
    ∃ (buf : Bytes) (draws : List Nat) (drawn : Nat), buf.length = 8 ∧
      t = ({ s with draws := draws, drawn := drawn } : State).answered
        (0x00 :: hexText (buf ++ [parity (Memory.block s.mem sec blk)])) := by
  cases hloop : corrupt s.draws s.drawn ((Memory.block s.mem sec blk).take 8) with
  | none => simp only [State.noisyRead, hloop, reduceCtorEq] at h
  | some r =>
    obtain ⟨buf, draws, drawn⟩ := r
    simp only [State.noisyRead, hloop] at h
    cases h
    refine ⟨buf, draws, drawn, ?_, rfl⟩
    simpa using corrupt_length _ _ _ hloop

theorem State.answered_injective (s : State) : Function.Injective s.answered := by
  intro f g h
  simpa using congrArg State.responses h

section
variable {s : State} {ss bb : Byte} {kt : KeyType} {key : Quad}

/-- CARD_READ answers `"10"` only when it is denied: a granted read answers two octets or nine. -/
theorem State.exec_cardRead_eq_denied_iff (hcard : s.cardInitd = true) :
    exec (.cardRead ss bb kt key) s = .next (s.answered [0x00, 0x31, 0x30]) ↔ s.auth .read ss bb kt key = none := by
  refine ⟨fun h => ?_, State.exec_cardRead_denied hcard⟩
  cases hauth : s.auth .read ss bb kt key with
  | none => rfl
  | some target =>
    exfalso
    obtain ⟨sec, blk⟩ := target
    by_cases hblk : blk = 3
    · subst hblk
      rw [State.exec_cardRead_trailer hcard hauth, Host.Outcome.next.injEq] at h
      exact hexText_ne_tokenNak (by simp) (List.cons.inj (s.answered_injective h)).2
    · rw [State.exec_cardRead_data hcard hauth hblk] at h
      obtain ⟨buf, draws, drawn, hlength, ht⟩ := State.noisyRead_answers h
      have hpayload : hexText (buf ++ [parity (Memory.block s.mem sec blk)]) = tokenNak := by
        simpa [tokenNak, eq_comm] using congrArg State.responses ht
      exact hexText_ne_tokenNak (by simp [hlength]) hpayload

/-- CARD_READI answers an empty `OK` only when it is denied: a granted read answers two bytes or nine. -/
theorem State.exec_cardReadi_eq_denied_iff (hport : s.port = .prv) (hcard : s.cardInitd = true) :
    exec (.cardReadi ss bb kt key) s = .next (s.answered [0x00]) ↔ s.auth .read ss bb kt key = none := by
  have hempty : exec (.cardReadi ss bb kt key) s = .next (s.answered [0x00]) ↔ s.authoritativeRead ss bb kt key = [] := by
    rw [State.exec_cardReadi hport hcard, Host.Outcome.next.injEq, s.answered_injective.eq_iff, List.cons.injEq]
    exact and_iff_right rfl
  rw [hempty]
  refine ⟨fun h => ?_, State.authoritativeRead_denied⟩
  cases hauth : s.auth .read ss bb kt key with
  | none => rfl
  | some target =>
    exfalso
    obtain ⟨sec, blk⟩ := target
    by_cases hblk : blk = 3
    · subst hblk
      rw [State.authoritativeRead_trailer hauth] at h
      exact List.cons_ne_nil _ _ h
    · rw [State.authoritativeRead_data hauth hblk, Memory.block_eq] at h
      exact List.cons_ne_nil _ _ h

end

/-- Settles O40: each side says that the one authorisation fails. -/
theorem readsAreGrantedTogether : Obligations.ReadsAreGrantedTogether :=
  fun _ _ _ _ _ hport hcard => (State.exec_cardRead_eq_denied_iff hcard).trans (State.exec_cardReadi_eq_denied_iff hport hcard).symm

end Sys2Proof.Machine
end

section
/-! PROOF. The noisy read of a data block (42_card_access.md R121 to R123): flips act on each bit by parity, so the listed draws can
make any eight octets, and the parity octet is that of the stored bytes (R129). -/

namespace Sys2Proof.Machine

/-! ### Flips in turn -/

/-- A buffer after the flips at listed positions, in turn (R121). -/
def flipEach (flips : List (Fin 8 × Fin 8)) (buf : Bytes) : Bytes :=
  flips.foldl (fun b pq => flipBit b pq.1.val pq.2.val) buf

theorem flipEach_cons (pq : Fin 8 × Fin 8) (flips : List (Fin 8 × Fin 8)) (buf : Bytes) :
    flipEach (pq :: flips) buf = flipEach flips (flipBit buf pq.1.val pq.2.val) := rfl

@[simp] theorem flipEach_length (flips : List (Fin 8 × Fin 8)) (buf : Bytes) : (flipEach flips buf).length = buf.length := by
  induction flips generalizing buf with
  | nil => rfl
  | cons pq flips ih => rw [flipEach_cons, ih, flipBit_length]

/-- Bit `i` of the mask of a flip. -/
theorem getLsbD_flipMask (q i : Fin 8) : ((1 : Byte) <<< q.val).getLsbD i.val = decide (q = i) := by
  revert q i; decide

/-- One flip changes the bit it names and no other. -/
theorem flipBit_getLsbD (buf : Bytes) (pq : Fin 8 × Fin 8) (p q : Fin 8) (h : p.val < buf.length) :
    ((flipBit buf pq.1.val pq.2.val)[p.val]'(by simpa using h)).getLsbD q.val =
      (buf[p.val].getLsbD q.val ^^ (pq == (p, q))) := by
  simp only [flipBit, List.getElem_modify]
  by_cases hp : pq.1 = p
  · rw [if_pos (congrArg Fin.val hp), BitVec.getLsbD_xor, getLsbD_flipMask]
    simp [beq_eq_decide, Prod.ext_iff, hp]
  · rw [if_neg fun hval => hp (Fin.ext hval)]
    simp [beq_eq_decide, Prod.ext_iff, hp]

/-- Adding one to a number changes whether it is odd. -/
theorem decide_odd_add_indicator (n : Nat) (b : Bool) :
    decide ((n + if b then 1 else 0) % 2 = 1) = (b ^^ decide (n % 2 = 1)) := by
  cases b with
  | false => simp
  | true =>
    rcases Nat.mod_two_eq_zero_or_one n with h | h <;> simp [Nat.add_mod, h]

/-- Flips act on a bit by the parity of its occurrences (R121). -/
theorem flipEach_getLsbD (flips : List (Fin 8 × Fin 8)) (buf : Bytes) (p q : Fin 8) (h : p.val < buf.length) :
    ((flipEach flips buf)[p.val]'(by simpa using h)).getLsbD q.val =
      (buf[p.val].getLsbD q.val ^^ decide (flips.count (p, q) % 2 = 1)) := by
  induction flips generalizing buf with
  | nil => simp [flipEach]
  | cons pq flips ih =>
    simp only [flipEach_cons]
    rw [ih _ (by simpa using h), flipBit_getLsbD buf pq p q h, List.count_cons, decide_odd_add_indicator, Bool.xor_assoc]

/-- Settles O37: the statement's fold is `flipEach`, whose flips act by parity. -/
theorem flipsActByParity : Obligations.FlipsActByParity := by
  intro buf flips p q h out
  exact ⟨(flipEach_length flips buf).trans h, flipEach_getLsbD flips buf p q (by omega)⟩

/-! ### The flips between two buffers -/

/-- The positions at which two buffers differ, each once. -/
def flipsBetween (buf target : Bytes) : List (Fin 8 × Fin 8) :=
  (List.finRange 8 ×ˢ List.finRange 8).filter fun pq => (buf.getD pq.1 0).getLsbD pq.2 != (target.getD pq.1 0).getLsbD pq.2

theorem flipsBetween_nodup (buf target : Bytes) : (flipsBetween buf target).Nodup :=
  ((List.nodup_finRange 8).product (List.nodup_finRange 8)).filter _

theorem mem_flipsBetween {buf target : Bytes} {p q : Fin 8} (h : p.val < buf.length) (h' : p.val < target.length) :
    (p, q) ∈ flipsBetween buf target ↔ buf[p.val].getLsbD q.val ≠ target[p.val].getLsbD q.val := by
  simp [flipsBetween, h, h']

/-- Flipping every position at which it differs turns a buffer into the other. -/
theorem flipEach_flipsBetween {buf target : Bytes} (h : buf.length = 8) (h' : target.length = 8) :
    flipEach (flipsBetween buf target) buf = target := by
  refine List.ext_getElem (by simp [h, h']) fun p hp hp' => BitVec.eq_of_getLsbD_eq fun q hq => ?_
  have hbuf : p < buf.length := by omega
  rw [flipEach_getLsbD _ buf ⟨p, by omega⟩ ⟨q, hq⟩ hbuf, (flipsBetween_nodup buf target).count]
  by_cases hbit : buf[p].getLsbD q = target[p].getLsbD q
  · rw [if_neg fun hmem => (mem_flipsBetween hbuf hp').mp hmem hbit]
    simpa using hbit
  · rw [if_pos ((mem_flipsBetween hbuf hp').mpr hbit)]
    simpa using Bool.eq_not_of_ne hbit

/-! ### Parity -/

theorem foldl_xor_init (bs : Bytes) (a : Byte) : bs.foldl (· ^^^ ·) a = a ^^^ parity bs :=
  calc bs.foldl (· ^^^ ·) a = bs.foldl (· ^^^ ·) (a ^^^ 0) := congrArg (bs.foldl _) BitVec.xor_zero.symm
    _ = a ^^^ parity bs := List.foldl_assoc

/-- The parity octet and the eight data octets give back the ninth byte (R129). -/
theorem foldl_xor_parity_append (bs : Bytes) (b : Byte) : bs.foldl (· ^^^ ·) (parity (bs ++ [b])) = b := by
  have happend : parity (bs ++ [b]) = parity bs ^^^ b := by simp [parity]
  rw [foldl_xor_init, happend, BitVec.xor_comm (parity bs) b, BitVec.xor_assoc, BitVec.xor_self, BitVec.xor_zero]

/-- A block is its eight data bytes and its byte 8. -/
theorem Memory.block_eq_take_append (m : Memory) (s : Fin 2) (b : Fin 4) :
    Memory.block m s b = (Memory.block m s b).take 8 ++ [Memory.byte m s b 8] := rfl

theorem Memory.parity_block (m : Memory) (s : Fin 2) (b : Fin 4) :
    parity (Memory.block m s b) =
      Memory.byte m s b 0 ^^^ Memory.byte m s b 1 ^^^ Memory.byte m s b 2 ^^^ Memory.byte m s b 3 ^^^ Memory.byte m s b 4 ^^^
        Memory.byte m s b 5 ^^^ Memory.byte m s b 6 ^^^ Memory.byte m s b 7 ^^^ Memory.byte m s b 8 := by
  simp [Memory.block_eq, parity]

/-! ### CARD_READ on listed draws -/

/-- The draws of flips at listed positions: a zero `c`, the byte, the bit (R121). -/
def flipDraws (flips : List (Fin 8 × Fin 8)) : List Nat := flips.flatMap fun pq => [0, pq.1.val, pq.2.val]

/-- The loop on listed flips and a `c` that ends it. -/
theorem corrupt_flipDraws (flips : List (Fin 8 × Fin 8)) {c : Nat} (hc : c % 3 ≠ 0) (rest : List Nat) (k : Nat) (buf : Bytes) :
    corrupt (flipDraws flips ++ c :: rest) k buf = some (flipEach flips buf, rest, k) :=
  (corrupt_flips flips _ k buf).trans (corrupt_stop hc rest k _)

/-- CARD_READ of a data block whose listed draws flip and then end the loop: the octets after those flips, then the true parity; the
draws taken are gone and nothing else changes (R120 to R123). -/
theorem State.exec_cardRead_listed {s : State} {ss bb : Byte} {kt : KeyType} {key : Quad} {sec : Fin 2} {blk : Fin 4}
    (hcard : s.cardInitd = true) (hauth : s.auth .read ss bb kt key = some (sec, blk)) (hblk : blk ≠ 3)
    (flips : List (Fin 8 × Fin 8)) {c : Nat} {rest : List Nat}
    (hdraws : s.draws = flipDraws flips ++ c :: rest) (hc : c % 3 ≠ 0) :
    exec (.cardRead ss bb kt key) s = .next (({ s with draws := rest } : State).answered
      (0x00 :: hexText (flipEach flips ((Memory.block s.mem sec blk).take 8) ++ [parity (Memory.block s.mem sec blk)]))) := by
  rw [State.exec_cardRead_data hcard hauth hblk]
  simp only [State.noisyRead, hdraws, corrupt_flipDraws flips hc]
  rfl

/-- Settles O35: a block's first eight bytes and its parity, written out byte by byte. -/
theorem noisyReadAppliesTheDrawnFlips : Obligations.NoisyReadAppliesTheDrawnFlips := by
  intro s ss bb kt key sec blk flips c rest hcard hauth hblk hdraws hc r buf par
  rw [State.exec_cardRead_listed hcard hauth hblk flips hdraws (by omega), Memory.parity_block]
  rfl

/-- Settles O36: list the flips between the stored bytes and the wanted ones, then end the loop. -/
theorem noisyReadReachesEveryValue : Obligations.NoisyReadReachesEveryValue := by
  intro s ss bb kt key sec blk buf hcard hauth hblk hlength r
  obtain ⟨flips, hflips⟩ : ∃ flips, flipEach flips ((Memory.block s.mem sec blk).take 8) = buf :=
    ⟨_, flipEach_flipsBetween (by simp) hlength⟩
  refine ⟨flipDraws flips ++ [1], ?_⟩
  rw [State.exec_cardRead_listed (s := { s with draws := flipDraws flips ++ [1] }) hcard hauth hblk flips rfl (by decide), hflips,
    Memory.parity_block]

/-- Settles O39: with no flip the octets are the stored bytes, and the parity octet is that of all nine. -/
theorem parityRecoversByteEight : Obligations.ParityRecoversByteEight := by
  intro s ss bb kt key sec blk c rest hcard hauth hblk hdraws hc
  refine ⟨parity (Memory.block s.mem sec blk), ?answer, ?recovered⟩
  case answer => exact State.exec_cardRead_listed hcard hauth hblk [] hdraws (by omega)
  case recovered =>
    rw [Memory.block_eq_take_append, List.take_left' (by simp)]
    exact foldl_xor_parity_append _ _

end Sys2Proof.Machine
end

section
/-! PROOF. The two writes (42_card_access.md R125, R126), and the one flag that gates an access (R128). -/

namespace Sys2Proof.Machine

section
variable {s : State} {ss bb oo : Byte} {kt : KeyType} {key : Quad} {dd : Byte} {sec : Fin 2} {blk : Fin 4} {off : Fin 9}

/-! ### Each write, outcome by outcome -/

theorem State.exec_cardWrite_denied (hcard : s.cardInitd = true) (htarget : s.writeTarget ss bb oo kt key = none) :
    exec (.cardWrite ss bb oo kt key dd) s = .next (s.answered [0x00, 0x31, 0x30]) := by
  simp only [exec, execCardWrite, s.needCard_true hcard, htarget]
  rfl

theorem State.exec_cardWrite_stored (hcard : s.cardInitd = true) (htarget : s.writeTarget ss bb oo kt key = some (sec, blk, off)) :
    exec (.cardWrite ss bb oo kt key dd) s = .next ((s.storeByte sec blk off dd).answered [0x00, 0x30, 0x34]) := by
  simp only [exec, execCardWrite, s.needCard_true hcard, htarget]
  rfl

theorem State.exec_cardWriteo_stored (hport : s.port = .prv) (hcard : s.cardInitd = true)
    (htarget : overrideTarget ss bb oo = some (sec, blk, off)) :
    exec (.cardWriteo ss bb oo dd) s = .next ((s.storeByte sec blk off dd).answered [0x00]) := by
  simp only [exec, execCardWriteo, s.privileged_prv hport, s.needCard_true hcard, htarget]
  rfl

/-- The target of an authorised write, the identity block only when it is writable (R53). -/
theorem State.writeTarget_of_auth (hauth : s.auth .write ss bb kt key = some (sec, blk)) (hoo : oo.toNat = off.val) (hoff : off.val ≤ 7)
    (hlock : sec = 0 → blk = 0 → s.b0w = true) : s.writeTarget ss bb oo kt key = some (sec, blk, off) := by
  refine State.writeTarget_eq_some.mpr ⟨hauth, hoo, hoo.trans_le hoff, ?_⟩
  rintro ⟨hsec, hblk, hb0w⟩
  exact absurd (hlock hsec hblk) (Bool.eq_false_iff.mp hb0w)

/-- The causes of R159 leave no target. -/
theorem State.writeTarget_eq_none (h : 7 < oo.toNat ∨ s.auth .write ss bb kt key = none ∨ (ss = 0 ∧ bb = 0 ∧ s.b0w = false)) :
    s.writeTarget ss bb oo kt key = none := by
  rw [Option.eq_none_iff_forall_ne_some]
  rintro ⟨sec, blk, off⟩ htarget
  obtain ⟨hauth, _, hoff, hlock⟩ := State.writeTarget_eq_some.mp htarget
  rcases h with hoo | hdenied | ⟨rfl, rfl, hb0w⟩
  · omega
  · rw [hdenied] at hauth; cases hauth
  · obtain ⟨hsec, hblk, _⟩ := State.auth_eq_some.mp hauth
    exact hlock ⟨Fin.ext hsec.symm, Fin.ext hblk.symm, hb0w⟩

/-! ### What the store leaves -/

/-- A store and a response: the one byte, every other address, every other field (R46). -/
theorem State.storeByte_answered_frame (s : State) (sec : Fin 2) (blk : Fin 4) (off : Fin 9) (v : Byte) (frame : Bytes) :
    Memory.byte ((s.storeByte sec blk off v).answered frame).mem sec blk off = v ∧
    (∀ a, a ≠ addr sec blk off → Memory.read ((s.storeByte sec blk off v).answered frame).mem a = Memory.read s.mem a) ∧
    (s.storeByte sec blk off v).answered frame =
      { s.answered frame with mem := ((s.storeByte sec blk off v).answered frame).mem } :=
  ⟨Memory.read_write_same s.mem _ v, fun _ ha => Memory.read_write_other s.mem v ha, rfl⟩

end

/-- Settles O43: the coordinates and the offset of the frame are the target, and the store writes that byte alone. -/
theorem authorisedWriteStoresOneByte : Obligations.AuthorisedWriteStoresOneByte := by
  intro s ss bb oo kt key dd sec blk off hcard hauth hoo hoff hlock
  have htarget := State.writeTarget_of_auth hauth hoo hoff hlock
  exact ⟨_, State.exec_cardWrite_stored hcard htarget, s.storeByte_answered_frame sec blk off dd _⟩

/-- Settles O44: every cause leaves no target; a coordinate out of range does so by failing `AUTH`. -/
theorem deniedWriteChangesNothing : Obligations.DeniedWriteChangesNothing := by
  intro s ss bb oo kt key dd hcard hdenied
  refine State.exec_cardWrite_denied hcard (State.writeTarget_eq_none ?_)
  rcases hdenied with hss | hbb | hdenied
  · exact .inr (.inl (State.auth_out_of_range (.inl hss)))
  · exact .inr (.inl (State.auth_out_of_range (.inr hbb)))
  · exact hdenied

/-- Settles O45: the target is the coordinates of the frame, whatever the protection. -/
theorem overrideWriteStoresOneByte : Obligations.OverrideWriteStoresOneByte := by
  intro s ss bb oo dd sec blk off hport hcard hss hbb hoo
  have htarget := overrideTarget_eq_some.mpr ⟨hss, hbb, hoo⟩
  exact ⟨_, State.exec_cardWriteo_stored hport hcard htarget, s.storeByte_answered_frame sec blk off dd _⟩

/-! ### One flag gates an access -/

/-- Without `TRAILER_NEEDS_DATA_FLAG` one flag decides, that of the kind of block (R49, R50). -/
theorem flagsOk_eq_accessFlag {p : Config.Params} (hp : p.trailerNeedsDataFlag = false) (ac : Byte) (blk : Fin 4) (op : AccessOp)
    (kt : KeyType) : flagsOk p ac blk op kt = accessFlag ac op kt (decide (blk = 3)) := by
  by_cases hblk : blk = 3 <;> simp [flagsOk, hp, hblk]

/-- The bit of that flag, counted from bit 7 down: trailer flags below data flags, Key B below Key A, write below read (R49). -/
theorem flagIndex_eq (op : AccessOp) (kt : KeyType) (blk : Fin 4) :
    flagIndex op kt (decide (blk = 3)) = (if blk = 3 then 3 - opBit op else 7 - opBit op) - 2 * keyBit kt := by
  by_cases hblk : blk = 3
  · simp only [flagIndex, hblk, decide_true, Bool.toNat_true, if_true]; omega
  · simp only [flagIndex, hblk, decide_false, Bool.toNat_false, if_false]; omega

section
variable {s : State} {op : AccessOp} {ss bb : Byte} {kt : KeyType} {sec : Fin 2} {blk : Fin 4}

/-- With its flag clear an access is denied for every key (R128). -/
theorem State.auth_of_flag_clear (hp : s.params.trailerNeedsDataFlag = false) (hss : ss.toNat = sec.val) (hbb : bb.toNat = blk.val)
    (hflag : accessFlag (Memory.access s.mem sec) op kt (decide (blk = 3)) = false) (key : Quad) :
    s.auth op ss bb kt key = none := by
  rw [Option.eq_none_iff_forall_ne_some]
  rintro ⟨sec', blk'⟩ hauth
  obtain ⟨hss', hbb', hauthorised⟩ := State.auth_eq_some.mp hauth
  obtain rfl : sec' = sec := Fin.ext (hss'.symm.trans hss)
  obtain rfl : blk' = blk := Fin.ext (hbb'.symm.trans hbb)
  obtain ⟨hflags, _⟩ := State.authorised_eq_true.mp hauthorised
  rw [flagsOk_eq_accessFlag hp, hflag] at hflags
  cases hflags

/-- With its flag set an access is authorised by the stored key (R128). -/
theorem State.auth_of_flag_set (hp : s.params.trailerNeedsDataFlag = false) (hss : ss.toNat = sec.val) (hbb : bb.toNat = blk.val)
    (hflag : accessFlag (Memory.access s.mem sec) op kt (decide (blk = 3)) = true) :
    s.auth op ss bb kt (Memory.key s.mem sec kt) = some (sec, blk) :=
  State.auth_eq_some.mpr ⟨hss, hbb, State.authorised_eq_true.mpr ⟨(flagsOk_eq_accessFlag hp ..).trans hflag, rfl⟩⟩

end

/-- Settles O31: the bit the statement names is the gating flag; clear it fails `AUTH` for every key, set it passes with the stored key. -/
theorem oneFlagGatesAnAccess : Obligations.OneFlagGatesAnAccess := by
  intro s ss bb oo dd kt sec blk hcard hp hss hbb ac readBit writeBit
  have hread : readBit = flagIndex .read kt (decide (blk = 3)) := by
    rw [flagIndex_eq]
    cases kt <;> rfl
  have hwrite : writeBit = flagIndex .write kt (decide (blk = 3)) := by
    rw [flagIndex_eq]
    cases kt <;> rfl
  rw [hread, hwrite]
  refine ⟨?readClear, ?writeClear, ?readSet, ?writeSet⟩
  case readClear => exact fun hflag key => State.exec_cardRead_denied hcard (State.auth_of_flag_clear hp hss hbb hflag key)
  case writeClear =>
    intro hflag key
    exact State.exec_cardWrite_denied hcard (State.writeTarget_eq_none (.inr (.inl (State.auth_of_flag_clear hp hss hbb hflag key))))
  case readSet => exact State.auth_of_flag_set hp hss hbb
  case writeSet =>
    intro hflag hoo hlock
    have htarget := State.writeTarget_of_auth (State.auth_of_flag_set hp hss hbb hflag) (oo := oo) (off := ⟨oo.toNat, by omega⟩) rfl hoo
      hlock
    exact ⟨_, State.exec_cardWrite_stored hcard htarget, rfl⟩

end Sys2Proof.Machine
end

section
/-! PROOF. The validator (43_validator.md R140 to R145): what VAL_INIT draws and stores, and the five conditions VAL_CHECK certifies. -/

namespace Sys2Proof.Machine

/-! ### VAL_INIT -/

/-- VAL_INIT on PRV is accepted for every operand (R140). -/
theorem State.exec_valInit (s : State) (hport : s.port = .prv) (vflags vk : Byte) (vmfg : Quad) :
    exec (.valInit vflags vk vmfg) s = .next ((s.buildValidator vflags vk vmfg).answered [0x00]) :=
  State.privileged_prv s hport _

/-- Settles O49: the values of the source in the order of R141, the operands, and the registers the command does not name. -/
theorem valInitBuildsAValidator : Obligations.ValInitBuildsAValidator := by
  intro vflags vk vmfg s hport
  refine ⟨_, State.exec_valInit s hport vflags vk vmfg, ?_⟩
  rw [State.buildValidator_eq]
  have hsel : BitVec.ofNat 2 (if flagValEn vflags then s.source 20 % 4 else 0) =
      if vflags.getLsbD 0 then BitVec.ofNat 2 (s.source 20 % 4) else 0 := apply_ite (BitVec.ofNat 2) _ _ _
  exact ⟨rfl, rfl, rfl, rfl, rfl, hsel, rfl, rfl, ⟨rfl, rfl⟩, rfl, rfl, rfl, rfl, rfl, rfl, rfl, rfl, rfl, rfl⟩

/-! ### VAL_CHECK -/

section
variable {s : State}

theorem State.exec_valCheck_disabled (hport : s.port = .prv) (hval : s.valInitd = true) (hen : s.valEn = false) :
    exec .valCheck s = .next (s.answered [0x00, 0x01]) := by
  simp only [exec, execValCheck, s.privileged_prv hport, s.needValidator_true hval, hen]
  rfl

theorem State.exec_valCheck_enabled (hport : s.port = .prv) (hval : s.valInitd = true) (hen : s.valEn = true)
    (hcard : s.cardInitd = true) :
    exec .valCheck s = .next (s.answered [0x00, if s.certified then 0x01 else 0x00]) := by
  simp only [exec, execValCheck, s.privileged_prv hport, s.needValidator_true hval, hen, s.needCard_true hcard]
  rfl

/-- The only target an access of sector 0 block 0 can have is the identity block. -/
theorem State.auth_identity {op : AccessOp} {kt : KeyType} {key : Quad} :
    s.auth op 0 0 kt key = none ∨ s.auth op 0 0 kt key = some (0, 0) := by
  cases hauth : s.auth op 0 0 kt key with
  | none => exact .inl rfl
  | some target =>
    obtain ⟨sec, blk⟩ := target
    obtain ⟨hsec, hblk, _⟩ := State.auth_eq_some.mp hauth
    obtain rfl : sec = 0 := Fin.ext hsec.symm
    obtain rfl : blk = 0 := Fin.ext hblk.symm
    exact .inr rfl

/-- Conditions 2 to 4 of R144, on the nine bytes of the identity block. -/
theorem State.fingerprintOk_identity : s.fingerprintOk (Memory.block s.mem 0 0) = true ↔
    Memory.byte s.mem 0 0 4 = s.valCrcKey ∧ Memory.quad s.mem 0 0 0 1 2 3 = s.valId ∧ Memory.quad s.mem 0 0 5 6 7 8 = s.valMfg := by
  simp only [Memory.block_eq, State.fingerprintOk, Bool.and_eq_true, decide_eq_true_eq, and_assoc, Memory.quad]

/-- Conditions 1 to 4 of R144: a denied read gives no byte to compare. -/
theorem State.fingerprintOk_authoritativeRead {kt : KeyType} {key : Quad} :
    s.fingerprintOk (s.authoritativeRead 0 0 kt key) = true ↔
      s.auth .read 0 0 kt key = some (0, 0) ∧ Memory.byte s.mem 0 0 4 = s.valCrcKey ∧
      Memory.quad s.mem 0 0 0 1 2 3 = s.valId ∧ Memory.quad s.mem 0 0 5 6 7 8 = s.valMfg := by
  rcases s.auth_identity with hdenied | hgranted
  · rw [State.authoritativeRead_denied hdenied, hdenied]
    exact iff_of_false Bool.false_ne_true fun ⟨hgranted, _⟩ => nomatch hgranted
  · rw [State.authoritativeRead_data hgranted (by decide), State.fingerprintOk_identity]
    exact (and_iff_right hgranted).symm

/-- The five conditions of R144. -/
theorem State.certified_iff : s.certified = true ↔
    s.auth .read 0 0 (selKeyType s.valSel) (s.valKt.selected s.valSel) = some (0, 0) ∧ Memory.byte s.mem 0 0 4 = s.valCrcKey ∧
    Memory.quad s.mem 0 0 0 1 2 3 = s.valId ∧ Memory.quad s.mem 0 0 5 6 7 8 = s.valMfg ∧ s.chainOk = true := by
  simp only [State.certified, Bool.and_eq_true, State.fingerprintOk_authoritativeRead, and_assoc]

end

/-- The selected key: bit 1 of the index is the sector, bit 0 the key type (R28, R142). -/
theorem KeyTable.selected_eq (kt : KeyTable) (sel : BitVec 2) : kt.selected sel =
    match sel.getLsbD 1, sel.getLsbD 0 with
    | false, false => kt.s0a | false, true => kt.s0b | true, false => kt.s1a | true, true => kt.s1b := by
  unfold KeyTable.selected selKeyType
  cases sel.getLsbD 1 <;> cases sel.getLsbD 0 <;> rfl

/-- Settles O50: disabled nothing is compared; enabled the answer is `certified`, with the selected key written out. -/
theorem valCheckCertifies : Obligations.ValCheckCertifies := by
  refine ⟨fun s hport hval hen => State.exec_valCheck_disabled hport hval hen, ?_⟩
  intro s hport hval hen hcard
  refine ⟨s.certified, State.exec_valCheck_enabled hport hval hen hcard, ?_⟩
  rw [State.certified_iff, KeyTable.selected_eq]
  exact Iff.rfl

end Sys2Proof.Machine
end

section
/-! PROOF. Operand bytes that are no command's: the illegal shapes of 60_exceptions.md R154, one lemma for each. -/

namespace Sys2Proof

theorem Opcode.toByte_injective : Function.Injective Opcode.toByte := by
  intro o o' h
  simpa using congrArg Opcode.ofByte h

/-- EXT may issue CARD_READ and CARD_WRITE alone (R66). -/
theorem Opcode.external_eq_false {op : Opcode} (hread : op ≠ .cardRead) (hwrite : op ≠ .cardWrite) : op.external = false := by
  unfold Opcode.external
  split
  · exact absurd rfl hread
  · exact absurd rfl hwrite
  · rfl

theorem decode_of_decodeOperands_eq_none {op : Opcode} {body : Bytes} (h : decodeOperands op body = none) :
    decode (op.toByte :: body) = .error (.malformed op) := by
  rw [decode_opcode, h]

section
variable {op : Opcode} {body : Bytes}

/-- Operand bytes that no command has do not decode. -/
theorem decodeOperands_eq_none (h : ∀ i : Instr, ¬i.StandsFor op body) : decodeOperands op body = none :=
  Option.eq_none_iff_forall_ne_some.mpr fun i hi => h i (decodeOperands_standsFor hi)

/-- The length of the operands of a format with a fixed length (R65). -/
theorem Instr.operandBytes_length {i : Instr} {n : Nat} (h : i.opcode.frameLength = some n) : i.operandBytes.length + 1 = n := by
  cases i <;> cases h <;> rfl

/-- A wrong length (R65, R73). -/
theorem decodeOperands_of_wrong_length {n : Nat} (hformat : op.frameLength = some n) (hlength : body.length + 1 ≠ n) :
    decodeOperands op body = none := by
  refine decodeOperands_eq_none fun i hi => ?_
  obtain ⟨rfl, rfl, _⟩ := hi
  exact hlength (Instr.operandBytes_length hformat)

/-- FLAGS bit 0 set (R70). -/
theorem decodeOperands_of_flags_reserved {flags : Byte} (hflags : flags.getLsbD 0 = true) :
    decodeOperands .cardInit (flags :: body) = none := by
  refine decodeOperands_eq_none fun i hi => ?_
  obtain ⟨hopcode, hoperands, hwf⟩ := hi
  cases i <;> cases hopcode
  cases hoperands
  have hclear : (!flags.getLsbD 0) = true := hwf
  rw [hflags] at hclear
  cases hclear

/-- A VFLAGS bit above bit 0 set (R71). -/
theorem decodeOperands_of_vflags_reserved {vflags : Byte} (hvflags : 1 < vflags.toNat) :
    decodeOperands .valInit (vflags :: body) = none := by
  refine decodeOperands_eq_none fun i hi => ?_
  obtain ⟨hopcode, hoperands, hwf⟩ := hi
  cases i <;> cases hopcode
  cases hoperands
  have hbits : vflags.extractLsb' 1 7 = 0 := beq_iff_eq.mp hwf
  have hvalue : (vflags.extractLsb' 1 7).toNat = 0 := by rw [hbits]; rfl
  rw [BitVec.extractLsb'_toNat, Nat.shiftRight_eq_div_pow] at hvalue
  omega

/-- No key type has a `KT` byte above 1 (R68). -/
theorem encodeKeyType_toNat_le (kt : KeyType) : (encodeKeyType kt).toNat ≤ 1 := by cases kt <;> decide

/-- `KT` above 1 in format FA, the format of both reads (R68). -/
theorem decodeFA_of_kt {make : Byte → Byte → KeyType → Quad → Instr} {ss bb kt : Byte} (hkt : 1 < kt.toNat) :
    decodeFA make (ss :: bb :: kt :: body) = none := by
  refine Option.eq_none_iff_forall_ne_some.mpr fun i hi => ?_
  obtain ⟨_, _, kt', _, hoperands, _⟩ := decodeFA_eq_some hi
  cases hoperands
  exact absurd hkt (Nat.not_lt.mpr (encodeKeyType_toNat_le kt'))

/-- `KT` above 1 in format FW (R68). -/
theorem decodeOperands_of_write_kt {ss bb oo kt : Byte} (hkt : 1 < kt.toNat) :
    decodeOperands .cardWrite (ss :: bb :: oo :: kt :: body) = none := by
  refine decodeOperands_eq_none fun i hi => ?_
  obtain ⟨hopcode, hoperands, _⟩ := hi
  cases i <;> cases hopcode
  cases hoperands
  exact absurd hkt (Nat.not_lt.mpr (encodeKeyType_toNat_le _))

end

end Sys2Proof
end

section
/-! PROOF. The hard failures (60_exceptions.md R151 to R162): what a frame that is no command is answered, what each check of a
command answers, and that a response with a non-zero status is the only effect of the frame that caused it. -/

namespace Sys2Proof.Machine

/-! ### A hard failure is the only effect -/

@[simp] theorem State.buildCard_responses (s : State) (flags crcKey : Byte) (id mfg : Quad) (keys : KeyTable) (ac0 ac1 : Byte) :
    (s.buildCard flags crcKey id mfg keys ac0 ac1).responses = s.responses := by
  rw [State.buildCard_eq, State.skipDraws_responses]

@[simp] theorem State.buildValidator_responses (s : State) (vflags vk : Byte) (vmfg : Quad) :
    (s.buildValidator vflags vk vmfg).responses = s.responses := by
  rw [State.buildValidator_eq, State.skipDraws_responses]

/-- The last response frame tells its status and its payload (R62). -/
theorem append_response_inj {responses : List Bytes} {status status' : Byte} {payload payload' : Bytes}
    (h : responses ++ [status :: payload] = responses ++ [status' :: payload']) : status = status' ∧ payload = payload' :=
  List.cons.inj (List.cons.inj (List.append_cancel_left h)).1

/-- A command either fails, and then answers one status byte and does nothing else, or it answers `OK` (R62, R162). -/
theorem Effect.failed_or_ok {i : Instr} {s t : State} (effect : Effect i s t) :
    (∃ code : Byte, (code = 0xE5 → i.opcode = .cardWriteo) ∧ t = s.answered [code]) ∨
    (∃ payload : Bytes, t.responses = s.responses ++ [0x00 :: payload]) := by
  cases effect with
  | failed code _ haddr ht => exact .inl ⟨code, haddr, ht⟩
  | answered payload ht => subst ht; exact .inr ⟨payload, rfl⟩
  | crcInit k _ _ _ ht => subst ht; exact .inr ⟨[], rfl⟩
  | cardInit flags crcKey id mfg keys ac0 ac1 _ _ _ ht =>
    subst ht; exact .inr ⟨[], by rw [State.answered_responses, State.buildCard_responses]; rfl⟩
  | noisy draws drawn payload _ ht => subst ht; exact .inr ⟨payload, rfl⟩
  | cardWrite sec blk off v _ _ _ _ ht => subst ht; exact .inr ⟨tokenAck, rfl⟩
  | cardWriteo sec blk off v _ _ _ ht => subst ht; exact .inr ⟨[], rfl⟩
  | valInit vflags vk vmfg _ _ ht =>
    subst ht; exact .inr ⟨[], by rw [State.answered_responses, State.buildValidator_responses]; rfl⟩

/-- A command that answers a non-zero status failed with that status. -/
theorem Effect.eq_answered_of_status_ne_ok {i : Instr} {s t : State} (effect : Effect i s t) {status : Byte} {payload : Bytes}
    (hresponse : t.responses = s.responses ++ [status :: payload]) (hstatus : status ≠ 0x00) :
    payload = [] ∧ (status = 0xE5 → i.opcode = .cardWriteo) ∧ t = s.answered [status] := by
  rcases effect.failed_or_ok with ⟨code, haddr, rfl⟩ | ⟨payload', hok⟩
  · obtain ⟨rfl, rfl⟩ := append_response_inj hresponse
    exact ⟨rfl, haddr, rfl⟩
  · exact absurd (append_response_inj (hresponse.symm.trans hok)).1 hstatus

/-- Settles O54: a non-zero status is that of a failed command or of a rejected frame, on the state that took the frame. -/
theorem hardFailuresAreClean : Obligations.HardFailuresAreClean := by
  intro s t src f rest status payload hpending hstep hresponse hstatus
  obtain ⟨i, effect⟩ := step_frame_effect hpending hstep
  obtain ⟨hpayload, _, rfl⟩ := effect.eq_answered_of_status_ne_ok hresponse hstatus
  exact ⟨hpayload, rfl⟩

/-! ### Frames that are no command -/

section
variable {s : State} {src : Port} {rest : List Event}

/-- A frame that is no command is taken off the events and answered its hard failure (R74). -/
theorem step_frame_of_decode_error {f : Bytes} {e : Illegal} (hpending : s.pending = .frame src f :: rest) (hdecode : decode f = .error e) :
    step s = .next ((s.accept src rest).answered [((s.accept src rest).illegalFrame e).code]) := by
  simp only [step, hpending, hdecode, State.rejectFrame_eq]

/-- A malformed frame is answered `E1` where the port check does not come first (R74 stages 3 and 4). -/
theorem step_malformed {op : Opcode} {body : Bytes} (hpending : s.pending = .frame src (op.toByte :: body) :: rest)
    (hoperands : decodeOperands op body = none) (hport : src = .prv ∨ op.external = true) :
    step s = .next ((s.accept src rest).answered [0xE1]) := by
  have herror : (s.accept src rest).illegalFrame (.malformed op) = .frame := by
    rw [State.illegalFrame_malformed, State.accept_port]
    rcases hport with rfl | hexternal
    · exact if_neg (by simp)
    · exact if_neg (by simp [hexternal])
  rw [step_frame_of_decode_error hpending (decode_of_decodeOperands_eq_none hoperands), herror]
  rfl

end

/-- Settles O4: the eleven bytes are the opcodes, so the first byte selects none; the port is not looked at (R153). -/
theorem reservedOpcodeAnswersErrOpcode : Obligations.ReservedOpcodeAnswersErrOpcode := by
  intro s src first body rest hpending hfirst
  have hopcode : Opcode.ofByte first = none := by
    rw [Opcode.ofByte_eq_none]
    rintro op rfl
    exact hfirst (List.mem_map_of_mem (f := Opcode.toByte) op.mem_all)
  have hdecode : decode (first :: body) = .error (.reservedOpcode first) := by simp only [decode, hopcode]
  exact step_frame_of_decode_error hpending hdecode

/-- Settles O5: the empty frame has its own answer; every other shape is an assigned opcode with operands that decode to no command. -/
theorem illegalShapeAnswersErrFrame : Obligations.IllegalShapeAnswersErrFrame := by
  intro s src f rest hpending hports hshape
  rcases hshape with rfl | hshape
  · exact step_frame_of_decode_error hpending rfl
  obtain ⟨op, body, rfl, hoperands⟩ : ∃ op body, f = Opcode.toByte op :: body ∧ decodeOperands op body = none := by
    rcases hshape with ⟨first, n, hformat, hfirst, hlength⟩ | ⟨flags, body, rfl, hflags⟩ | ⟨vflags, body, rfl, hvflags⟩ |
      ⟨first, ss, bb, kt, body, hfirst, rfl, hkt⟩ | ⟨ss, bb, oo, kt, body, rfl, hkt⟩
    · obtain ⟨body, rfl⟩ := List.head?_eq_some_iff.mp hfirst
      obtain ⟨op, _, hop⟩ := List.mem_filterMap (l := Opcode.all)
        (f := fun op => (Opcode.frameLength op).map (op.toByte, ·)).mp hformat
      obtain ⟨_, hlen, heq⟩ := Option.map_eq_some_iff.mp hop
      cases heq
      exact ⟨op, body, rfl, decodeOperands_of_wrong_length hlen hlength⟩
    · exact ⟨.cardInit, _, rfl, decodeOperands_of_flags_reserved hflags⟩
    · exact ⟨.valInit, _, rfl, decodeOperands_of_vflags_reserved hvflags⟩
    · rcases hfirst with rfl | rfl
      · exact ⟨.cardRead, _, rfl, decodeFA_of_kt hkt⟩
      · exact ⟨.cardReadi, _, rfl, decodeFA_of_kt hkt⟩
    · exact ⟨.cardWrite, _, rfl, decodeOperands_of_write_kt hkt⟩
  refine step_malformed hpending hoperands ?_
  rcases hports with hprv | hempty | hread | hwrite
  · exact .inl hprv
  · cases hempty
  · obtain rfl : op = .cardRead := Opcode.toByte_injective (Option.some.inj hread)
    exact .inr rfl
  · obtain rfl : op = .cardWrite := Opcode.toByte_injective (Option.some.inj hwrite)
    exact .inr rfl

/-! ### The port check -/

/-- A privileged command is not performed in any part on EXT (R155). -/
theorem State.exec_ext {s : State} (hport : s.port = .ext) {i : Instr} (hi : i.opcode.external = false) :
    exec i s = .next (s.answered [0xE2]) := by
  cases i with
  | crcInit k => exact s.privileged_ext hport _
  | crcGetdiv => exact s.privileged_ext hport _
  | crcCalc data => exact s.privileged_ext hport _
  | cardInit flags crcKey id mfg s0ka s0kb s1ka s1kb ac0 ac1 => exact s.privileged_ext hport _
  | cardCheck => exact s.privileged_ext hport _
  | cardRead ss bb kt key => cases hi
  | cardReadi ss bb kt key => exact s.privileged_ext hport _
  | cardWrite ss bb oo kt key dd => cases hi
  | cardWriteo ss bb oo dd => exact s.privileged_ext hport _
  | valInit vflags vk vmfg => exact s.privileged_ext hport _
  | valCheck => exact s.privileged_ext hport _

/-- A frame of a privileged opcode on EXT: privilege is checked before the shape (R74, R161). -/
theorem step_privileged_ext {s : State} {op : Opcode} {body : Bytes} {rest : List Event}
    (hpending : s.pending = .frame .ext (op.toByte :: body) :: rest) (hop : op.external = false) :
    step s = .next ((s.accept .ext rest).answered [0xE2]) := by
  cases hoperands : decodeOperands op body with
  | none =>
    have herror : (s.accept .ext rest).illegalFrame (.malformed op) = .priv := if_pos ⟨rfl, hop⟩
    rw [step_frame_of_decode_error hpending (decode_of_decodeOperands_eq_none hoperands), herror]
    rfl
  | some i =>
    have hdecode : decode (op.toByte :: body) = .ok i := by rw [decode_opcode, hoperands]
    obtain ⟨rfl, _, _⟩ := decodeOperands_standsFor hoperands
    rw [step_frame_of_decode_ok hpending hdecode, State.exec_ext (State.accept_port ..) hop]

/-- Settles O6: the nine bytes are the opcodes that are not external; malformed or not, the port decides. -/
theorem privilegedOpcodeOnExtAnswersErrPriv : Obligations.PrivilegedOpcodeOnExtAnswersErrPriv := by
  refine ⟨?frame, fun s i hport hread hwrite => State.exec_ext hport (Opcode.external_eq_false hread hwrite)⟩
  intro s first body rest hpending hfirst
  obtain ⟨op, hop, rfl⟩ := List.mem_map (f := Opcode.toByte) (l := Opcode.all.filter fun op => !op.external).mp hfirst
  exact step_privileged_ext hpending (by simpa using (List.mem_filter.mp hop).2)

/-! ### `E5` -/

section
variable {s t : State}

theorem State.exec_cardWriteo_outOfShape (hport : s.port = .prv) (hcard : s.cardInitd = true) {ss bb oo dd : Byte}
    (hshape : 1 < ss.toNat ∨ 3 < bb.toNat ∨ 8 < oo.toNat) : exec (.cardWriteo ss bb oo dd) s = .next (s.answered [0xE5]) := by
  simp only [exec, execCardWriteo, s.privileged_prv hport, s.needCard_true hcard, overrideTarget_eq_none.mpr hshape]
  rfl

/-- A command that answers `E5` is a CARD_WRITEO out of the shape that passed the port and the existence checks (R157). -/
theorem exec_answers_addr {i : Instr} {payload : Bytes} (h : exec i s = .next t)
    (hresponse : t.responses = s.responses ++ [0xE5 :: payload]) :
    s.port = .prv ∧ s.cardInitd = true ∧
      ∃ ss bb oo dd : Byte, i = .cardWriteo ss bb oo dd ∧ (1 < ss.toNat ∨ 3 < bb.toNat ∨ 8 < oo.toNat) := by
  obtain ⟨_, hopcode, _⟩ := (exec_effect h).eq_answered_of_status_ne_ok hresponse (by decide)
  cases i <;> cases hopcode rfl
  rename_i ss bb oo dd
  rcases State.privileged_cases s t _ h with ⟨hport, hrun⟩ | ⟨_, rfl⟩
  · rcases State.needCard_cases s t _ hrun with ⟨hcard, hrun⟩ | ⟨_, rfl⟩
    · refine ⟨hport, hcard, ss, bb, oo, dd, rfl, overrideTarget_eq_none.mp ?_⟩
      cases htarget : overrideTarget ss bb oo with
      | none => rfl
      | some target =>
        obtain ⟨sec, blk, off⟩ := target
        cases (State.exec_cardWriteo_stored hport hcard htarget).symm.trans h
        exact absurd (append_response_inj hresponse).1 (by decide)
    · exact absurd (append_response_inj hresponse).1 (by decide)
  · exact absurd (append_response_inj hresponse).1 (by decide)

theorem HardFailure.eq_addr_of_code {e : HardFailure} (h : e.code = 0xE5) : e = .addr := by
  cases e with
  | addr => rfl
  | opcode | frame | priv | invalidKey | notInit => exact absurd h (by decide)

/-- No frame is rejected with `E5` (R74). -/
theorem State.illegalFrame_ne_addr (s : State) (e : Illegal) : s.illegalFrame e ≠ .addr := by
  cases e with
  | emptyFrame => exact nofun
  | reservedOpcode first => exact nofun
  | malformed op => rw [State.illegalFrame_malformed]; split <;> exact nofun

end

/-- Settles O46: only a command can answer `E5`, not a rejected frame, and that command is a CARD_WRITEO out of the shape; the other card
commands are denied there. -/
theorem onlyOverrideWriteAnswersErrAddr : Obligations.OnlyOverrideWriteAnswersErrAddr := by
  refine ⟨fun s ss bb oo dd hport hcard hshape => State.exec_cardWriteo_outOfShape hport hcard hshape, ?command, ?frame, ?reads, ?write⟩
  case command =>
    intro i s t payload hi h hresponse
    obtain ⟨_, _, ss, bb, oo, dd, rfl, _⟩ := exec_answers_addr h hresponse
    exact hi rfl
  case frame =>
    intro s t src f rest payload hpending hstep hresponse
    cases hdecode : decode f with
    | error e =>
      rw [step_frame_of_decode_error hpending hdecode] at hstep
      cases hstep
      obtain ⟨hcode, _⟩ := append_response_inj hresponse
      exact absurd (HardFailure.eq_addr_of_code hcode) (State.illegalFrame_ne_addr _ e)
    | ok i =>
      rw [step_frame_of_decode_ok hpending hdecode] at hstep
      obtain ⟨hport, hcard, ss, bb, oo, dd, rfl, hshape⟩ := exec_answers_addr hstep hresponse
      exact ⟨hport, hcard, ss, bb, oo, dd, rfl, hshape⟩
  case reads =>
    intro s ss bb kt key hcard hshape
    exact deniedReadsChangeNothing s ss bb kt key hcard (hshape.imp_right .inl)
  case write =>
    intro s ss bb oo dd kt key hcard hshape
    exact deniedWriteChangesNothing s ss bb oo kt key dd hcard (hshape.imp_right (Or.imp_right .inl))

/-! ### The existence checks and the key check -/

/-- VAL_CHECK without a validator, or with an enabled one and no card (R156). -/
theorem State.exec_valCheck_notInit {s : State} (hport : s.port = .prv)
    (hmissing : s.valInitd = false ∨ (s.valEn = true ∧ s.cardInitd = false)) : exec .valCheck s = .next (s.answered [0xE4]) := by
  refine (s.privileged_prv hport _).trans ?_
  cases hval : s.valInitd with
  | false => exact s.needValidator_false hval _
  | true =>
    obtain ⟨hen, hcard⟩ : s.valEn = true ∧ s.cardInitd = false := hmissing.resolve_left (by simp [hval])
    rw [s.needValidator_true hval, if_pos hen]
    exact s.needCard_false hcard _

/-- Settles O47: each command comes to the check of its unit after the port check, CRC_CALC after its length too. -/
theorem uninitialisedUnitAnswersErrNotInit : Obligations.UninitialisedUnitAnswersErrNotInit := by
  refine ⟨?crc, ?card, fun s hport hmissing => State.exec_valCheck_notInit hport hmissing⟩
  case crc =>
    intro s hport hcrc
    obtain ⟨_, _, hcalc, _⟩ := crcCalcResult
    exact ⟨(s.privileged_prv hport _).trans (s.needCrc_false hcrc _), fun data => hcalc data s hport hcrc⟩
  case card =>
    intro s ss bb oo dd kt key hcard
    refine ⟨s.needCard_false hcard _, s.needCard_false hcard _, fun hport => ⟨?_, ?_, ?_⟩⟩ <;>
      exact (s.privileged_prv hport _).trans (s.needCard_false hcard _)

/-- Settles O48: after the port check a zero key fails before the state is touched; VAL_INIT fails by the port check alone, with `E2`. -/
theorem zeroKeyAnswersErrInvalidKey : Obligations.ZeroKeyAnswersErrInvalidKey := by
  refine ⟨?crcInit, ?cardInit, ?valInit⟩
  case crcInit => exact fun s hport => s.privileged_prv hport _
  case cardInit => exact fun s _ _ _ _ _ _ _ _ _ hport => s.privileged_prv hport _
  case valInit =>
    intro s t vflags vk vmfg payload h
    rcases State.privileged_cases s t _ h with ⟨_, hrun⟩ | ⟨_, rfl⟩
    · cases hrun
      rw [State.respond_responses, State.buildValidator_responses]
      exact fun hresponse => absurd (append_response_inj hresponse).1 (by decide)
    · exact fun hresponse => absurd (append_response_inj hresponse).1 (by decide)

end Sys2Proof.Machine
end

section
/-! PROOF. A reset event (70_reset_and_hazards.md R170), and what an EXT frame can reach: one byte outside the checksums and the locked
identity block, and no register (R178). -/

namespace Sys2Proof.Machine

/-- Settles O10: the state a reset event leaves is that of reset in every register and byte, and `s` in what is outside the block. -/
theorem resetEventClearsTheBlock : Obligations.ResetEventClearsTheBlock :=
  fun _ _ hpending =>
    ⟨_, step_of_pending_reset hpending, rfl, rfl, rfl, State.reset_byte, rfl, rfl, rfl, rfl, rfl, rfl, rfl, rfl, rfl,
      rfl, rfl, rfl, rfl, rfl, rfl⟩

/-- On EXT a command answers and at most draws, or it is a CARD_WRITE that stores one byte: never a byte 8, never in a locked identity
block (R125, R127, R165). -/
theorem Effect.ext_cases {i : Instr} {s t : State} (effect : Effect i s t) (hport : s.port = .ext) :
    (∃ draws drawn frame, t = ({ s with draws := draws, drawn := drawn } : State).answered frame) ∨
    (∃ sec blk off v frame, off ≠ 8 ∧ ¬(sec = 0 ∧ blk = 0 ∧ s.b0w = false) ∧ t = (s.storeByte sec blk off v).answered frame) := by
  have hprv : s.port ≠ .prv := by simp [hport]
  cases effect with
  | failed code _ _ ht => exact .inl ⟨s.draws, s.drawn, _, ht⟩
  | answered payload ht => exact .inl ⟨s.draws, s.drawn, _, ht⟩
  | noisy draws drawn payload _ ht => exact .inl ⟨draws, drawn, _, ht⟩
  | cardWrite sec blk off v _ _ hoff hlock ht => exact .inr ⟨sec, blk, off, v, _, hoff, hlock, ht⟩
  | crcInit k _ hp => exact absurd hp hprv
  | cardInit flags crcKey id mfg keys ac0 ac1 _ hp => exact absurd hp hprv
  | cardWriteo sec blk off v _ hp => exact absurd hp hprv
  | valInit vflags vk vmfg _ hp => exact absurd hp hprv

/-- A store leaves every byte at other coordinates. -/
theorem State.storeByte_byte_other (s : State) {sec sec' : Fin 2} {blk blk' : Fin 4} {off off' : Fin 9} (v : Byte)
    (h : ¬(sec' = sec ∧ blk' = blk ∧ off' = off)) :
    Memory.byte (s.storeByte sec blk off v).mem sec' blk' off' = Memory.byte s.mem sec' blk' off' :=
  Memory.read_write_other s.mem v (mt addr_inj.mp h)

/-- Settles O53: drawing and answering touch no byte and no register; the one store is outside what the statement protects. -/
theorem extCannotReachProtectedState : Obligations.ExtCannotReachProtectedState := by
  intro s t f rest hpending hstep
  obtain ⟨i, effect⟩ := step_frame_effect hpending hstep
  rcases effect.ext_cases (State.accept_port ..) with ⟨draws, drawn, frame, rfl⟩ | ⟨sec, blk, off, v, frame, hoff, hlock, rfl⟩
  · exact ⟨fun _ _ => rfl, fun _ _ => rfl, rfl, rfl, rfl, rfl, rfl, rfl, rfl, rfl, rfl, rfl, rfl, rfl⟩
  · refine ⟨fun sec' blk' => ?checksum, fun hb0w off' => ?identity, rfl, rfl, rfl, rfl, rfl, rfl, rfl, rfl, rfl, rfl, rfl, rfl⟩
    case checksum => exact State.storeByte_byte_other _ v fun ⟨_, _, h8⟩ => hoff h8.symm
    case identity => exact State.storeByte_byte_other _ v fun ⟨hsec, hblk, _⟩ => hlock ⟨hsec.symm, hblk.symm, hb0w⟩

end Sys2Proof.Machine
end

section
/-! PROOF. The corruption loop beyond the listed draws (42_card_access.md R121, 70_reset_and_hazards.md R175), and that a read it never
leaves is the one step without a next state. -/

namespace Sys2Proof.Machine

/-! ### CARD_READ on a free source -/

section
variable {s : State} {ss bb : Byte} {kt : KeyType} {key : Quad} {sec : Fin 2} {blk : Fin 4}

/-- A flip's positions are inside the range of their draws already. -/
theorem flipEach_eq_foldl_mod (flips : List (Fin 8 × Fin 8)) (buf : Bytes) :
    flipEach flips buf = flips.foldl (fun b pq => flipBit b (pq.1.val % 8) (pq.2.val % 8)) buf := by
  simp only [flipEach, Nat.mod_eq_of_lt (Fin.isLt _)]

/-- CARD_READ of a data block whose loop has come to value `k` of the free source with the octets `buf`: the source's answer decides
(R175). -/
theorem State.exec_cardRead_free (hcard : s.cardInitd = true) (hauth : s.auth .read ss bb kt key = some (sec, blk)) (hblk : blk ≠ 3)
    {k : Nat} {buf : Bytes} (hloop : corrupt s.draws s.drawn ((Memory.block s.mem sec blk).take 8) = corruptFree k buf) :
    exec (.cardRead ss bb kt key) s = (Config.freeFlips k).elim (.fault .readNeverEnds) fun more =>
      .next (({ s with draws := [], drawn := k + 3 * more.length + 1 } : State).answered
        (0x00 :: hexText (flipBits buf more ++ [parity (Memory.block s.mem sec blk)]))) := by
  rw [State.exec_cardRead_data hcard hauth hblk]
  simp only [State.noisyRead, hloop, corruptFree]
  cases Config.freeFlips k with
  | none => rfl
  | some more => rfl

end

/-- Settles O38: the listed flips are made, and each way the list can run out leaves the free source at its own value. -/
theorem noisyReadOnAFreeSource : Obligations.NoisyReadOnAFreeSource := by
  intro s ss bb kt key sec blk flips hcard hauth hblk r par flip listed buf free
  have hbuf : flipEach flips ((Memory.block s.mem sec blk).take 8) = buf := flipEach_eq_foldl_mod flips _
  have hflips (tail : List Nat) (hdraws : s.draws = listed ++ tail) :
      corrupt s.draws s.drawn ((Memory.block s.mem sec blk).take 8) = corrupt tail s.drawn buf := by
    rw [hdraws, ← hbuf]
    exact corrupt_flips flips tail _ _
  have hfree {k : Nat} {b : Bytes} (hloop : corrupt s.draws s.drawn ((Memory.block s.mem sec blk).take 8) = corruptFree k b) :
      exec (.cardRead ss bb kt key) s = free k b := by
    rw [State.exec_cardRead_free hcard hauth hblk hloop, Memory.parity_block]
    cases hanswer : Config.freeFlips k with
    | none => simp only [free, hanswer, Option.elim_none]
    | some more => simp only [free, hanswer, Option.elim_some]; rfl
  refine ⟨fun hdraws => ?iteration, fun hdraws => ?afterC, fun p hdraws => ?afterP⟩
  case iteration => exact hfree ((hflips [] (by simpa using hdraws)).trans (corrupt_nil s.drawn buf))
  case afterC => exact hfree ((hflips [0] hdraws).trans (corrupt_one rfl s.drawn buf))
  case afterP => exact hfree ((hflips [0, p.val] hdraws).trans (corrupt_two rfl p.val s.drawn buf))

/-! ### What completes -/

/-- A meaning that ends in a next state. -/
def Result.Completes (r : Result) : Prop := ∃ t, r = .next t

theorem Result.Completes.ite {p : Prop} [Decidable p] {act act' : Result} (h : Result.Completes act) (h' : Result.Completes act') :
    Result.Completes (if p then act else act') := by
  split
  · exact h
  · exact h'

section
variable (s : State) {act : Result}

theorem State.answer_completes (payload : Bytes) : Result.Completes (s.answer payload) := ⟨_, rfl⟩

theorem State.fail_completes (e : HardFailure) : Result.Completes (s.fail e) := ⟨_, rfl⟩

theorem State.privileged_completes (h : Result.Completes act) : Result.Completes (s.privileged act) :=
  .ite h (s.fail_completes .priv)

theorem State.needCard_completes (h : Result.Completes act) : Result.Completes (s.needCard act) :=
  .ite h (s.fail_completes .notInit)

theorem State.needCrc_completes (h : Result.Completes act) : Result.Completes (s.needCrc act) :=
  .ite h (s.fail_completes .notInit)

theorem State.needValidator_completes (h : Result.Completes act) : Result.Completes (s.needValidator act) :=
  .ite h (s.fail_completes .notInit)

end

/-- Every command but CARD_READ completes in every state: no check and no meaning of theirs can stop the block (R163). -/
theorem exec_completes {i : Instr} (hi : i.opcode ≠ .cardRead) (s : State) : Result.Completes (exec i s) := by
  cases i with
  | crcInit k => exact s.privileged_completes (.ite (s.fail_completes .invalidKey) (State.answer_completes _ []))
  | crcGetdiv => exact s.privileged_completes (s.needCrc_completes (s.answer_completes _))
  | crcCalc data =>
    exact s.privileged_completes (.ite (s.needCrc_completes (s.answer_completes _)) (s.fail_completes .frame))
  | cardInit flags crcKey id mfg s0ka s0kb s1ka s1kb ac0 ac1 =>
    exact s.privileged_completes (.ite (s.fail_completes .invalidKey) (State.answer_completes _ []))
  | cardCheck => exact s.privileged_completes (s.needCard_completes (s.answer_completes _))
  | cardRead ss bb kt key => exact absurd rfl hi
  | cardReadi ss bb kt key => exact s.privileged_completes (s.needCard_completes (s.answer_completes _))
  | cardWrite ss bb oo kt key dd =>
    refine s.needCard_completes ?_
    split
    · exact s.answer_completes tokenNak
    · exact State.answer_completes _ tokenAck
  | cardWriteo ss bb oo dd =>
    refine s.privileged_completes (s.needCard_completes ?_)
    split
    · exact s.fail_completes .addr
    · exact State.answer_completes _ []
  | valInit vflags vk vmfg => exact s.privileged_completes (State.answer_completes _ [])
  | valCheck =>
    exact s.privileged_completes (s.needValidator_completes
      (.ite (s.needCard_completes (s.answer_completes _)) (s.answer_completes _)))

theorem eq_cardRead_of_opcode {i : Instr} (h : i.opcode = .cardRead) : ∃ ss bb kt key, i = .cardRead ss bb kt key := by
  cases i with
  | cardRead ss bb kt key => exact ⟨ss, bb, kt, key, rfl⟩
  | _ => cases h

/-- A CARD_READ completes, or it reads a data block it may read and its corruption loop never ends (R121, R175). -/
theorem exec_cardRead_completes_or_faults (s : State) (ss bb : Byte) (kt : KeyType) (key : Quad) :
    Result.Completes (exec (.cardRead ss bb kt key) s) ∨
    ∃ sec blk, s.cardInitd = true ∧ s.auth .read ss bb kt key = some (sec, blk) ∧ blk ≠ 3 ∧
      corrupt s.draws s.drawn ((Memory.block s.mem sec blk).take 8) = none ∧
      exec (.cardRead ss bb kt key) s = .fault .readNeverEnds := by
  cases hcard : s.cardInitd with
  | false => exact .inl ⟨_, s.needCard_false hcard _⟩
  | true =>
    cases hauth : s.auth .read ss bb kt key with
    | none => exact .inl ⟨_, State.exec_cardRead_denied hcard hauth⟩
    | some target =>
      obtain ⟨sec, blk⟩ := target
      by_cases hblk : blk = 3
      · subst hblk
        exact .inl ⟨_, State.exec_cardRead_trailer hcard hauth⟩
      · rw [State.exec_cardRead_data hcard hauth hblk]
        cases hloop : corrupt s.draws s.drawn ((Memory.block s.mem sec blk).take 8) with
        | none => exact .inr ⟨sec, blk, rfl, rfl, hblk, hloop, by simp only [State.noisyRead, hloop]⟩
        | some r => exact .inl ⟨_, by simp only [State.noisyRead, hloop]; rfl⟩

/-- Settles O57: nothing pending, a reset, a rejected frame and every other command complete; a CARD_READ that does not has used up its
list as `corrupt_eq_none` says. -/
theorem everyStepCompletesUnlessAReadNeverEnds : Obligations.EveryStepCompletesUnlessAReadNeverEnds := by
  intro s
  cases hpending : s.pending with
  | nil => exact .inl ⟨_, step_of_pending_nil hpending⟩
  | cons event rest =>
    cases event with
    | reset => exact .inl ⟨_, step_of_pending_reset hpending⟩
    | frame src f =>
      cases hdecode : decode f with
      | error e => exact .inl ⟨_, step_frame_of_decode_error hpending hdecode⟩
      | ok i =>
        rw [step_frame_of_decode_ok hpending hdecode]
        by_cases hi : i.opcode = .cardRead
        · obtain ⟨ss, bb, kt, key, rfl⟩ := eq_cardRead_of_opcode hi
          rcases exec_cardRead_completes_or_faults (s.accept src rest) ss bb kt key with
            hnext | ⟨sec, blk, hcard, hauth, hblk, hloop, hfault⟩
          · exact .inl hnext
          · obtain ⟨turns, tail, hdraws, hturns, hend⟩ := corrupt_eq_none hloop
            exact .inr ⟨src, f, rest, ss, bb, kt, key, sec, blk, turns, tail, rfl, hdecode, hcard, hauth, hblk, hfault, hdraws,
              hturns, hend⟩
        · exact .inl (exec_completes hi _)

end Sys2Proof.Machine
end
